-- ==== Sys2Proof/Word.lean ====
section
/-! DEFINITION. The word types of the block: bytes, 32-bit registers and buffers (spec/00_scope.md R13). -/

namespace Sys2Proof

/-- An 8-bit value, R13 `Byte`. -/
abbrev Byte := BitVec 8

/-- A 32-bit interface register or command word, R24 and R70. -/
abbrev Word := BitVec 32

/-- A finite sequence of bytes, index 0 first: R13 `Buf`, "the sole data type flowing between stages". -/
abbrev Buf := List Byte

end Sys2Proof
end

