-- ==== Sys2Proof/Machine/Collaborators.lean ====
section
/-! DEFINITION. The two external collaborators of the block, the codec and the cipher, as pairs of total
functions that carry the laws the spec states of them (spec/41_framer.md R120 to R122, spec/42_aead.md R140
to R142), and the two test doubles of spec/95_test_vectors.md §4, with the proofs that they keep those laws. -/

namespace Sys2Proof.Machine

/-- `InflateResult`, R120. -/
inductive InflateResult where
  /-- The first `used` bytes are one complete stream, which decodes to `data`. -/
  | ok (data : Buf) (used : Nat)
  /-- The bytes are not a valid stream. -/
  | malformed
  /-- The argument ends before the end-of-stream marker. -/
  | truncated
deriving DecidableEq, Repr

/-- The codec behind FRAME and UNFRAME, R120, with the laws R121 and R122 and no other property. -/
structure Codec where
  /-- `COMPRESS`: the complete stream of a buffer at the default compression level. -/
  compress : Buf → Buf
  /-- `INFLATE`. -/
  inflate : Buf → InflateResult
  /-- R121, the roundtrip law. -/
  inflate_compress : ∀ x, inflate (compress x) = .ok x (compress x).length
  /-- R122 (a). -/
  compress_pos : ∀ x, 1 ≤ (compress x).length
  /-- R122 (b). -/
  inflate_used : ∀ s d k, inflate s = .ok d k → 1 ≤ k ∧ k ≤ s.length

/-- A 16-byte key, or a 16-byte IV: "both always exactly 16 bytes" (R30). -/
abbrev Bytes16 := Vector Byte 16

/-- `TAG_LEN`, the length of the authentication tag (R6). -/
abbrev tagLen : Nat := 16

/-- The cipher behind AEAD_ENC and AEAD_DEC, R140, with the laws R141 and R142 and no other property: what
`openBytes` answers on a ciphertext that `sealBytes` did not produce is left open (R143). -/
structure Cipher where
  /-- `SEAL(K, N, A, P)`: ciphertext body followed by the tag. -/
  sealBytes : Bytes16 → Bytes16 → Buf → Buf → Buf
  /-- `OPEN(K, N, A, C)`: the plaintext, or `none` for `FAIL`. -/
  openBytes : Bytes16 → Bytes16 → Buf → Buf → Option Buf
  /-- R141, first law. -/
  seal_length : ∀ k n a p, (sealBytes k n a p).length = p.length + tagLen
  /-- R141, second law; `OPEN` is only given ciphertexts of at least 16 bytes. -/
  open_length : ∀ k n a c p, tagLen ≤ c.length → openBytes k n a c = some p → p.length = c.length - tagLen
  /-- R142, the roundtrip law. -/
  open_of_seal : ∀ k n a p, openBytes k n a (sealBytes k n a p) = some p

/-! ## The codec test double, 95_test_vectors.md §4.1 -/

/-- Each byte `FF` becomes `FF FF`, other bytes are copied, and the end marker `FF 00` is appended. -/
def stubCompress : Buf → Buf
  | [] => [0xFF, 0x00]
  | b :: bs => if b = 0xFF then 0xFF :: 0xFF :: stubCompress bs else b :: stubCompress bs

/-- Reads a stream of the codec double, with `used` bytes read and the output `done` so far. -/
def stubInflateFrom (used : Nat) (done : Buf) : Buf → InflateResult
  | [] => .truncated
  | [_] => .truncated
  | b :: c :: rest =>
    if b = 0xFF then
      if c = 0xFF then stubInflateFrom (used + 2) (done ++ [0xFF]) rest
      else if c = 0x00 then .ok done (used + 2)
      else .malformed
    else stubInflateFrom (used + 1) (done ++ [b]) (c :: rest)

/-- `INFLATE` of the codec double. -/
def stubInflate (s : Buf) : InflateResult := stubInflateFrom 0 [] s

theorem stubCompress_pos (x : Buf) : 2 ≤ (stubCompress x).length := by
  induction x with
  | nil => simp [stubCompress]
  | cons b bs ih =>
    simp only [stubCompress]
    split
    · simp
    · simp
      omega

theorem stubInflateFrom_compress (x : Buf) (used : Nat) (done : Buf) :
    stubInflateFrom used done (stubCompress x) = .ok (done ++ x) (used + (stubCompress x).length) := by
  induction x generalizing used done with
  | nil => simp [stubCompress, stubInflateFrom]
  | cons b bs ih =>
    have hpos := stubCompress_pos bs
    by_cases hb : b = 0xFF
    · subst hb
      simp [stubCompress, stubInflateFrom, ih]
      omega
    · obtain ⟨c, r, hc⟩ : ∃ c r, stubCompress bs = c :: r := by
        cases h : stubCompress bs with
        | nil => simp [h] at hpos
        | cons c r => exact ⟨c, r, rfl⟩
      have := ih (used + 1) (done ++ [b])
      simp only [stubCompress, hb, if_false, hc, stubInflateFrom] at this ⊢
      rw [this]
      simp
      omega

theorem stubInflateFrom_used (s : Buf) (used : Nat) (done d : Buf) (k : Nat)
    (h : stubInflateFrom used done s = .ok d k) : used + 1 ≤ k ∧ k ≤ used + s.length := by
  induction used, done, s using stubInflateFrom.induct with
  | case1 => simp [stubInflateFrom] at h
  | case2 => simp [stubInflateFrom] at h
  | case3 used done rest ih =>
    simp only [stubInflateFrom, if_true] at h
    have := ih h
    simp
    omega
  | case4 used done rest h0 =>
    simp [stubInflateFrom] at h
    simp
    omega
  | case5 used done c rest h1 h0 =>
    simp only [stubInflateFrom, if_true, h1, h0, if_false] at h
    contradiction
  | case6 used done b c rest hb ih =>
    simp only [stubInflateFrom, hb, if_false] at h
    have := ih h
    simp at this ⊢
    omega

/-- The codec test double of 95_test_vectors.md §4.1. -/
def Codec.testDouble : Codec where
  compress := stubCompress
  inflate := stubInflate
  inflate_compress x := by simp [stubInflate, stubInflateFrom_compress]
  compress_pos x := by have := stubCompress_pos x; omega
  inflate_used s d k h := by
    have := stubInflateFrom_used s 0 [] d k h
    omega

/-! ## The cipher test double, 95_test_vectors.md §4.2 -/

/-- The tag `T(p)[j] = (L + Σ p[i] + j) mod 256`, for j = 0..15. -/
def stubTag (p : Buf) : Buf :=
  (List.range tagLen).map fun j => BitVec.ofNat 8 (p.length + (p.map BitVec.toNat).sum + j)

/-- `SEAL` of the cipher double: each byte XOR `A5`, then the tag. -/
def stubSeal (p : Buf) : Buf := p.map (· ^^^ 0xA5) ++ stubTag p

/-- `OPEN` of the cipher double: the plaintext if sealing it gives the ciphertext back. -/
def stubUnseal (c : Buf) : Option Buf :=
  let p := (c.take (c.length - tagLen)).map (· ^^^ 0xA5)
  if stubSeal p = c then some p else none

theorem stubTag_length (p : Buf) : (stubTag p).length = tagLen := by simp [stubTag]

theorem stubSeal_length (p : Buf) : (stubSeal p).length = p.length + tagLen := by
  simp [stubSeal, stubTag_length]

/-- The cipher test double of 95_test_vectors.md §4.2; it ignores key, IV and associated data. -/
def Cipher.testDouble : Cipher where
  sealBytes _ _ _ p := stubSeal p
  openBytes _ _ _ c := stubUnseal c
  seal_length _ _ _ p := stubSeal_length p
  open_length _ _ _ c p _ h := by
    simp only [stubUnseal] at h
    split at h
    · cases h
      simp
    · cases h
  open_of_seal _ _ _ p := by
    have hp : ((stubSeal p).take ((stubSeal p).length - tagLen)).map (· ^^^ (0xA5 : Byte)) = p := by
      rw [stubSeal_length, Nat.add_sub_cancel]
      simp [stubSeal, Function.comp_def]
    simp only [stubUnseal, hp, if_true]

end Sys2Proof.Machine
end

