-- ==== Sys2Proof/Config.lean ====
section
/-! DEFINITION. The parameters of the block (spec/00_scope.md R6, R7; spec/20_memory.md R50) and the values
the spec leaves open, each an opaque constant that nothing in Lean can evaluate. -/

namespace Sys2Proof

/-- `LAYERING`, R10: which obfuscator is next to the PKT bytes. -/
inductive Layering where
  /-- Formula A outside: the default (R3). -/
  | aOuter
  /-- Formula A inside. -/
  | aInner
deriving DecidableEq, Repr, Inhabited

/-- `TRAILING`, R7: bytes after the end of the compressed stream. -/
inductive Trailing where
  /-- They make UNFRAME fail: the default. -/
  | reject
  /-- They are ignored. -/
  | ignore
deriving DecidableEq, Repr, Inhabited

/-- `DEFLATE_FMT`, R9: which codec is behind `COMPRESS` and `INFLATE`. -/
inductive DeflateFmt where
  /-- The platform's codec, of which only the laws R121 and R122 are known. -/
  | external
  /-- The test double of 95_test_vectors.md §4.1, which keeps the same laws. -/
  | testDouble
deriving DecidableEq, Repr

/-- `AEAD_ALG`, R8: which cipher is behind `SEAL` and `OPEN`. -/
inductive AeadAlg where
  /-- The platform's cipher, of which only the laws R141 and R142 are known. -/
  | external
  /-- The test double of 95_test_vectors.md §4.2, which keeps the same laws. -/
  | testDouble
deriving DecidableEq, Repr

/-- The implementation parameters of R7 and the platform parameter `REG_BASE` of R50, as plain data. They
are hardwired: no host access and no reset changes them (R30, R32, R39). -/
structure Params where
  /-- `MAX_LEN`, the capacity of every buffer; a 32-bit value, so at most 2^32 − 1. -/
  maxLen : Word
  /-- `KEY_BYTE`. -/
  keyByte : Byte
  /-- `IV_BYTE`. -/
  ivByte : Byte
  /-- `LAYERING`. -/
  layering : Layering := .aOuter
  /-- `TRAILING`. -/
  trailing : Trailing := .reject
  /-- `DEFLATE_FMT`. -/
  deflateFmt : DeflateFmt := .external
  /-- `AEAD_ALG`. -/
  aeadAlg : AeadAlg := .external
  /-- `REG_BASE`, where the register window sits in the host's address space. -/
  regBase : Nat
deriving DecidableEq, Repr

/-- The constraints of R7 and R50 on the parameters; `MAX_LEN` ≤ 2^32 − 1 is in its type. -/
def Params.wf (p : Params) : Bool :=
  decide (1 ≤ p.maxLen.toNat) && decide (p.keyByte ≠ p.ivByte) && decide (p.regBase % 4 = 0)

namespace Config

/-! The open values. A codec and a cipher that keep the laws always exist (the test doubles), so the two
`getD` below leave the collaborators exactly as free as R7 does: any lawful pair of functions. -/

/-- Open: the external codec, U6 and U7 of 93_implementation_defined.md. -/
opaque codecChoice : Option Machine.Codec
/-- Open: the external cipher, U9. -/
opaque cipherChoice : Option Machine.Cipher
/-- Open: `MAX_LEN`, D4. -/
opaque maxLenChoice : Word
/-- Open: `KEY_BYTE`, U10. -/
opaque keyByte : Byte
/-- Open: `IV_BYTE`, U10. -/
opaque ivByteChoice : Byte
/-- Open: `LAYERING`, U14. -/
opaque layering : Layering
/-- Open: `TRAILING`, U15. -/
opaque trailing : Trailing
/-- Open: `REG_BASE` in words, D13. -/
opaque regBaseWords : Nat
/-- Open: what an `OUT` cell holds that no completion has written, U18. -/
opaque unwrittenOut : Nat → Byte

/-- The external codec: any codec with the laws R121 and R122. -/
def codec : Machine.Codec := codecChoice.getD Machine.Codec.testDouble

/-- The external cipher: any cipher with the laws R141 and R142. -/
def cipher : Machine.Cipher := cipherChoice.getD Machine.Cipher.testDouble

/-- `MAX_LEN`: any value from 1 to 2^32 − 1. -/
def maxLen : Word := if maxLenChoice = 0 then 1 else maxLenChoice

/-- `IV_BYTE`: any value other than `KEY_BYTE`. -/
def ivByte : Byte := if ivByteChoice = keyByte then keyByte + 1 else ivByteChoice

/-- The parameters of the block that `Machine.State.reset` stands for. -/
def params : Params where
  maxLen := maxLen
  keyByte := keyByte
  ivByte := ivByte
  layering := layering
  trailing := trailing
  deflateFmt := .external
  aeadAlg := .external
  regBase := 4 * regBaseWords

end Config

/-- The functions `COMPRESS` and `INFLATE` of a block with these parameters. -/
def Params.codec (p : Params) : Machine.Codec :=
  match p.deflateFmt with
  | .external => Config.codec
  | .testDouble => Machine.Codec.testDouble

/-- The functions `SEAL` and `OPEN` of a block with these parameters. -/
def Params.cipher (p : Params) : Machine.Cipher :=
  match p.aeadAlg with
  | .external => Config.cipher
  | .testDouble => Machine.Cipher.testDouble

/-- `KEY` = `rep(16, KEY_BYTE)`, R30. -/
def Params.key (p : Params) : Machine.Bytes16 := Vector.replicate 16 p.keyByte

/-- `IV` = `rep(16, IV_BYTE)`, R30. -/
def Params.iv (p : Params) : Machine.Bytes16 := Vector.replicate 16 p.ivByte

end Sys2Proof
end

