-- ==== Sys2Proof/Syntax.lean ====
section
/-! DEFINITION. The ten commands of the opcode map, one constructor per row of spec/opcode_table.json
(spec/30_encoding.md R71). -/

namespace Sys2Proof

/-- A command as the host writes it to `CMD`. The only operand of the encoding is the hint bit `DIAG`
(R70: "There are no register fields and no immediate fields"). Every command carries it, because the
stored command word is readable (R25), although only ENCODE and DECODE act on it (R73). -/
inductive Instr where
  /-- OP 0x0, R170. -/
  | nop (diag : Bool)
  /-- OP 0x1, forwardFormulaA, R102. -/
  | obfaFwd (diag : Bool)
  /-- OP 0x2, inverseFormulaA, R103. -/
  | obfaInv (diag : Bool)
  /-- OP 0x3, formulaB, R104. -/
  | obfb (diag : Bool)
  /-- OP 0x4, frameAndCompress, R123. -/
  | frame (diag : Bool)
  /-- OP 0x5, unframeAndDecompress, R126. -/
  | unframe (diag : Bool)
  /-- OP 0x6, aeadEncrypt, R144. -/
  | aeadEnc (diag : Bool)
  /-- OP 0x7, aeadDecrypt, R145. -/
  | aeadDec (diag : Bool)
  /-- OP 0x8, the encode pipeline, R172. -/
  | encode (diag : Bool)
  /-- OP 0x9, the decode pipeline, R173. -/
  | decode (diag : Bool)
deriving DecidableEq, Repr

end Sys2Proof
end

