-- ==== Sys2Proof/WellFormed.lean ====
section
/-! DEFINITION. Well-formedness: of a command word (spec/30_encoding.md R70, R72) and of a command. -/

namespace Sys2Proof

/-- The two checks of R72 on a command word: `OP` (bits 3:0) is at most 0x9, and `RSV` (bits 31:5) is zero. -/
def legalWord (v : Word) : Bool := decide (v.toNat % 16 ≤ 9) && decide (v.toNat / 32 = 0)

/-- A command as syntax. R70 gives a command no field but `DIAG`, which has one bit, so the type already
excludes every ill-formed term and no constructor has a check of its own. -/
def Instr.wf : Instr → Bool
  | .nop _ => true
  | .obfaFwd _ => true
  | .obfaInv _ => true
  | .obfb _ => true
  | .frame _ => true
  | .unframe _ => true
  | .aeadEnc _ => true
  | .aeadDec _ => true
  | .encode _ => true
  | .decode _ => true

end Sys2Proof
end

