-- ==== Sys2Proof/Decode.lean ====
section
/-! DEFINITION. The command word: field extraction, the total decoder, and the encoder
(spec/30_encoding.md R70 to R76). -/

namespace Sys2Proof

/-- Why a command word is illegal (R72). Both reasons complete with `ERR` = `ILLEGAL`. -/
inductive DecodeError where
  /-- `RSV` (bits 31:5) is not zero. -/
  | reservedBits
  /-- `OP` is one of 0xA..0xF. -/
  | reservedOp
deriving DecidableEq, Repr

/-- `OP`, bits 3:0 of a command word (R25, R70). -/
def opField (v : Word) : BitVec 4 := v.extractLsb' 0 4

/-- `DIAG`, bit 4 of a command word (R25, R70). -/
def diagField (v : Word) : Bool := v.getLsbD 4

/-- `RSV`, bits 31:5 of a command word (R25, R70). -/
def rsvField (v : Word) : BitVec 27 := v.extractLsb' 5 27

/-- The command of an `OP` value, R71; `none` for the reserved values 0xA..0xF. -/
def commandOf (op : BitVec 4) (diag : Bool) : Option Instr :=
  match op.toNat with
  | 0x0 => some (.nop diag)
  | 0x1 => some (.obfaFwd diag)
  | 0x2 => some (.obfaInv diag)
  | 0x3 => some (.obfb diag)
  | 0x4 => some (.frame diag)
  | 0x5 => some (.unframe diag)
  | 0x6 => some (.aeadEnc diag)
  | 0x7 => some (.aeadDec diag)
  | 0x8 => some (.encode diag)
  | 0x9 => some (.decode diag)
  | _ => none

/-- The decoder, total on every 32-bit word: "A decoder finds the command from `OP` and `RSV` alone" (R76). -/
def decode (v : Word) : Except DecodeError Instr :=
  if rsvField v ≠ 0 then .error .reservedBits
  else match commandOf (opField v) (diagField v) with
    | some i => .ok i
    | none => .error .reservedOp

/-- The `OP` value of a command, R71. -/
def opcodeOf : Instr → BitVec 4
  | .nop _ => 0x0
  | .obfaFwd _ => 0x1
  | .obfaInv _ => 0x2
  | .obfb _ => 0x3
  | .frame _ => 0x4
  | .unframe _ => 0x5
  | .aeadEnc _ => 0x6
  | .aeadDec _ => 0x7
  | .encode _ => 0x8
  | .decode _ => 0x9

/-- The `DIAG` bit of a command. -/
def diagOf : Instr → Bool
  | .nop d => d
  | .obfaFwd d => d
  | .obfaInv d => d
  | .obfb d => d
  | .frame d => d
  | .unframe d => d
  | .aeadEnc d => d
  | .aeadDec d => d
  | .encode d => d
  | .decode d => d

/-- The encoder: `zext_32(DIAG << 4 | OP)`, R75. -/
def encode (i : Instr) : Word :=
  (0#27 ++ BitVec.ofBool (diagOf i)) ++ opcodeOf i

/-- What the decoder reads from a table row's bits. Every command is one 32-bit word written by one host
access (R76), so the bits are that word, and a longer string of bits is no command. -/
def decodeTableWord (nbits w : Nat) : Option Instr :=
  if nbits ≤ 32 then (decode (BitVec.ofNat 32 (w % 2 ^ nbits))).toOption else none

end Sys2Proof
end

