-- ==== Sys2Proof/Machine/State.lean ====
section
/-! DEFINITION. Everything the block holds (spec/10_state.md R20 to R36), the pending host accesses that drive
it (spec/00_scope.md R12, spec/20_memory.md R58), the reasons a step can stop, and the state after reset
(spec/10_state.md R39, spec/70_reset_and_hazards.md R230). -/

namespace Sys2Proof.Machine

/-- Why a step stops with a fault: never. The block has no trap, no bus error and no halt (R207, R209): an
error is a completion status (R200), and the spec's own model fault is state, the set `MF` (R36), after which
host accesses and reset go on (93_implementation_defined.md U21). So this type has no constructor: nobody
raises a fault, and a claim about faulting runs would be about no run (safe). -/
inductive Fault where
deriving DecidableEq, Repr

/-- Why an instruction is refused. -/
inductive Refusal where
  /-- Raised by an arm of `exec` whose command has no meaning yet; every command has one, so no step raises
  it (safe: such a step would stop where the block goes on). -/
  | notModelled (mnemonic : String)
deriving DecidableEq, Repr

/-- `STATUS.ERR`, R201; the reserved codes 5 to 7 are never produced. -/
inductive ErrCode where
  /-- 0, success. -/
  | none
  /-- 1, `FormatError`. -/
  | format
  /-- 2, `AuthenticationError`. -/
  | auth
  /-- 3, a length above `MAX_LEN`. -/
  | capacity
  /-- 4, reserved `OP` or nonzero `RSV`. -/
  | illegal
deriving DecidableEq, Repr

/-- The error kinds of a core-level result, R16. -/
inductive ErrKind where
  | format
  | auth
  | capacity
deriving DecidableEq, Repr

/-- A pipeline stage number, 1..4, or 0 for none (R16, R21, R26 `FAIL_STAGE`). -/
abbrev StageNo := Fin 5

/-- A core-level result, R16: an `err` carries no buffer. -/
inductive Result where
  | ok (y : Buf)
  | err (k : ErrKind) (stage : StageNo)
deriving DecidableEq, Repr

/-- The fields of `STATUS`, R26. Its reserved bits are not stored, since they only read 0
(`Status.word` of Flags.lean). -/
structure Status where
  /-- Bit 0: a command is executing. -/
  busy : Bool
  /-- Bit 1: the last accepted command has completed. -/
  done : Bool
  /-- Bits 4:2. -/
  err : ErrCode
  /-- Bits 11:8: `OP` of the last accepted command, legal or not. -/
  lastOp : BitVec 4
  /-- Bits 14:12. -/
  failStage : StageNo
deriving DecidableEq, Repr

/-- The two pipeline operations, as a tap names them (R33). -/
inductive PipeOp where
  | encode
  | decode
deriving DecidableEq, Repr

/-- An event of the observer trace, R33 `Tap(op, stage, buf)`. -/
structure Tap where
  op : PipeOp
  stage : StageNo
  buf : Buf
deriving DecidableEq, Repr

/-- The members the model-fault set can have, R36. -/
inductive ModelFault where
  /-- A command would read an `IN` cell never written since reset (R22, R205). -/
  | unwrittenRead
deriving DecidableEq, Repr

/-- A buffer's cells that have been written since reset: (index, byte) pairs, indices strictly rising. An
unlisted cell is unwritten, the mark `⊥` of R22, so no entry equals what an unlisted cell reads as. -/
abbrev Memory := List Host.Cell

/-- What happens next outside the block, or whose turn it is (R12, R58). -/
inductive Event where
  /-- A host write of `value`, `width` bits wide, at an offset of the register window. -/
  | write (width : Nat) (offset : BitVec 8) (value : Word)
  /-- A host read, `width` bits wide, at an offset of the register window. -/
  | read (width : Nat) (offset : BitVec 8)
  /-- The schedule gives the block agent its turn before the next host access (R58: "the schedule is free"). -/
  | blockTurn
  /-- The platform asserts reset for one step (R230). -/
  | reset
deriving DecidableEq, Repr

/-- The whole machine. -/
structure State where
  /-- The hardwired parameters: what `CAPACITY`, `CONFIG`, `KEY` and `IV` are made of (R30, R32). -/
  hw : Params
  /-- `CMD`, R25. -/
  cmd : Word
  /-- `STATUS`, R26. -/
  status : Status
  /-- `IN_LEN`, R27. -/
  inLen : Word
  /-- `OUT_LEN`, R28. -/
  outLen : Word
  /-- `IN_PTR`, R29. -/
  inPtr : Word
  /-- `OUT_PTR`, R31. -/
  outPtr : Word
  /-- `IN`, R22. -/
  inBuf : Memory
  /-- `OUT`, R23. -/
  outBuf : Memory
  /-- `STAGE`, R21 and R34. -/
  stage : StageNo
  /-- `LATCH_OP`, R34. Its value in an idle block is the model's choice (log entries 5 and 18). -/
  latchOp : BitVec 4
  /-- `LATCH_DIAG`, R34. Its value in an idle block is the model's choice (log entries 5 and 18). -/
  latchDiag : Bool
  /-- `W`, the stage work buffer, R34. -/
  work : Buf
  /-- `OBS`, the observer trace, oldest first, R33. -/
  obs : List Tap
  /-- `MF`, the model-fault set, no member twice, R36. -/
  mf : List ModelFault
  /-- The model's own: the host accesses, resets and block turns still to come, next first. Empty means that
  the host is silent, and then the block has the turn (R165). -/
  inbox : List Event
  /-- The model's own: the values the host's reads returned, oldest first. -/
  replies : List Word
deriving DecidableEq, Repr

/-- The power-up state of a block with parameters `p`: R39 and R230 with `MF` empty. DESIGN CHOICE (log entry
5): `LATCH_OP`, `LATCH_DIAG` and `W` are "unspecified, unobservable" there, and start as zeros and `[]`. -/
def State.powerUp (p : Params) : State where
  hw := p
  cmd := 0
  status := { busy := false, done := false, err := .none, lastOp := 0, failStage := 0 }
  inLen := 0
  outLen := 0
  inPtr := 0
  outPtr := 0
  inBuf := []
  outBuf := []
  stage := 0
  latchOp := 0
  latchDiag := false
  work := []
  obs := []
  mf := []
  inbox := []
  replies := []

/-- The machine right after reset at power-up, its parameters left open. -/
def State.reset : State := State.powerUp Config.params

end Sys2Proof.Machine
end

