-- ==== Sys2Proof/Machine/Flags.lean ====
section
/-! DEFINITION. The status flags: the layout of `STATUS` and every change of its fields (spec/10_state.md R26,
R37; spec/43_sequencer.md R160 to R163, R170; spec/60_exceptions.md R200, R201). -/

namespace Sys2Proof.Machine

/-- `STATUS.ERR` as its three bits, R201. -/
def ErrCode.bits : ErrCode → BitVec 3
  | .none => 0
  | .format => 1
  | .auth => 2
  | .capacity => 3
  | .illegal => 4

/-- `code(k)` of R163. -/
def ErrKind.code : ErrKind → ErrCode
  | .format => .format
  | .auth => .auth
  | .capacity => .capacity

/-- The word a read of `STATUS` returns, R26: bits 7:5 and 31:15 read 0. -/
def Status.word (f : Status) : Word :=
  0#17 ++ BitVec.ofNat 3 f.failStage.val ++ f.lastOp ++ 0#3 ++ f.err.bits ++ BitVec.ofBool f.done ++ BitVec.ofBool f.busy

/-- Acceptance of a command with this `OP`, legal or not: the status lines of R160. -/
def Status.accept (op : BitVec 4) (f : Status) : Status :=
  { f with done := false, err := .none, failStage := 0, lastOp := op }

/-- Acceptance of a command that is to execute: `BUSY` <- 1, the last line of R160. -/
def Status.start (f : Status) : Status := { f with busy := true }

/-- `complete_nop()`, R170. -/
def Status.finishNop (f : Status) : Status := { f with done := true }

/-- Successful completion: the status lines of R163 for `Ok`. -/
def Status.succeed (f : Status) : Status :=
  { f with err := .none, failStage := 0, busy := false, done := true }

/-- Completion with an error: the status lines of R163 for `Err`, R161 and R200. -/
def Status.fail (c : ErrCode) (stage : StageNo) (f : Status) : Status :=
  { f with err := c, failStage := stage, busy := false, done := true }

end Sys2Proof.Machine
end

