-- ==== Sys2Proof/Machine/Memory.lean ====
section
/-! DEFINITION. The cells of the byte buffers `IN` and `OUT`: reading, writing and the canonical form
(spec/10_state.md R22, R23; spec/00_scope.md R15). -/

namespace Sys2Proof.Machine

/-- The canonical form of a buffer's cells: indices strictly rising. -/
abbrev Memory.wf (m : Memory) : Prop := (m.map Prod.fst).Pairwise (· < ·)

/-- The byte of a cell, or `none` for `⊥`: R22 "never written since reset". -/
def Memory.read? (m : Memory) (a : Nat) : Option Byte :=
  match m with
  | [] => none
  | (c, b) :: rest => if c = a then some b else Memory.read? rest a

/-- Writes one cell, keeping the indices in order. -/
def Memory.write (m : Memory) (a : Nat) (v : Byte) : Memory :=
  match m with
  | [] => [(a, v)]
  | (c, b) :: rest =>
    if a < c then (a, v) :: (c, b) :: rest
    else if c = a then (a, v) :: rest
    else (c, b) :: Memory.write rest a v

/-- `MemRead(m, a, n)` of R15, or `none` if one of the cells is `⊥`. -/
def Memory.readBytes (m : Memory) (a n : Nat) : Option Buf :=
  match n with
  | 0 => some []
  | k + 1 =>
    match m.read? a, Memory.readBytes m (a + 1) k with
    | some b, some bs => some (b :: bs)
    | _, _ => none

/-- `MemWrite(m, a, |y|, y)` of R15. -/
def Memory.writeBytes (m : Memory) (a : Nat) (y : Buf) : Memory :=
  match y with
  | [] => m
  | b :: bs => Memory.writeBytes (m.write a b) (a + 1) bs

end Sys2Proof.Machine
end

