-- ==== Sys2Proof/Machine/Operands.lean ====
section
/-! DEFINITION. Operand assembly (spec/30_encoding.md R74): the one implicit source and destination of every
command, the big-endian length prefix, and the fixed operands of the cipher. A command has no other operand
form: "There are no immediates, no register operands and no addressing modes." -/

namespace Sys2Proof.Machine

/-- `PREFIX_LEN`, R6. -/
abbrev prefixLen : Nat := 4

/-- `BE32(n)`, R14: most significant byte first. -/
def be32 (n : Nat) : Buf :=
  [BitVec.ofNat 8 (n / 2 ^ 24), BitVec.ofNat 8 (n / 2 ^ 16), BitVec.ofNat 8 (n / 2 ^ 8), BitVec.ofNat 8 n]

/-- `UNBE32(b)` of the first four bytes, R14: the big-endian unsigned number they spell. -/
def unbe32 (b : Buf) : Nat := b.foldl (fun n d => n * 2 ^ 8 + d.toNat) 0

/-- The associated data `AD`: "the empty sequence" (R6). -/
def associatedData : Buf := []

/-- The input of the next command, `IN[0..IN_LEN)` (R27, R74), or `none` if one of its cells is `⊥`. -/
def State.input? (s : State) : Option Buf := s.inBuf.readBytes 0 s.inLen.toNat

/-- The output of the last command, `OUT[0..OUT_LEN)` (R28, R74), or `none` if a cell was never written. -/
def State.output? (s : State) : Option Buf := s.outBuf.readBytes 0 s.outLen.toNat

end Sys2Proof.Machine
end

