-- ==== Sys2Proof/Machine/Ops.lean ====
section
/-! DEFINITION. The operations that the commands share: acceptance, error completion, successful completion,
execution, and reset (spec/43_sequencer.md R160 to R163; spec/60_exceptions.md R200, R205, R208;
spec/70_reset_and_hazards.md R230). -/

namespace Sys2Proof.Machine

/-! ## Acceptance -/

/-- The lines of R160 that every command word takes, legal or not. They are also the return from an error:
"the next accepted command clears `DONE`, `ERR` and `FAIL_STAGE`" (R208). -/
def acceptWord (v : Word) (s : State) : State :=
  { s with cmd := v, status := s.status.accept (opField v) }

/-- The lines of R160 for a command that is to execute. -/
def latchCommand (v : Word) (s : State) : State :=
  { s with
    outLen := 0, outPtr := 0, latchOp := opField v, latchDiag := diagField v, stage := 0,
    status := s.status.start }

/-! ## Completion -/

/-- Error completion, "the block's form of trap entry" (R200): `STATUS` saves the code and the stage, no byte
of `OUT` is readable, and control is back with the host. -/
def takeError (c : ErrCode) (stage : StageNo) (s : State) : State :=
  { s with outLen := 0, outPtr := 0, status := s.status.fail c stage }

/-- `complete_illegal()`, R161. -/
def completeIllegal (s : State) : State := takeError .illegal 0 s

/-- `complete_nop()`, R170. -/
def completeNop (s : State) : State := { s with status := s.status.finishNop }

/-- `complete(result)`, R163. DESIGN CHOICE, unsafe: after a success `LATCH_OP` and `LATCH_DIAG` keep the values of the
command that ended (log entry 18), and `W` its last stage output (log entry 12); R34 and U18 of
93_implementation_defined.md leave them open once the block is idle. -/
def complete (r : Result) (s : State) : State :=
  match r with
  | .ok y =>
    { s with
      outBuf := s.outBuf.writeBytes 0 y, outLen := BitVec.ofNat 32 y.length, outPtr := 0, stage := 0,
      status := s.status.succeed }
  | .err k n => { takeError k.code n s with stage := 0 }

/-- `model_fault(reason)`: adds a member to `MF` and does nothing else; `BUSY` stays 1 (R36, R205). -/
def recordModelFault (r : ModelFault) (s : State) : State :=
  { s with mf := if r ∈ s.mf then s.mf else s.mf ++ [r] }

/-! ## Execution -/

/-- The block agent's step of a latched command, R162. `core` is `DISPATCH` of that command: what it returns,
and what the hidden state and the observer trace become on the way. -/
def execute (core : Buf → State → State × Result) (s : State) : State :=
  if s.hw.maxLen < s.inLen then complete (.err .capacity 0) s
  else
    match s.input? with
    | none => recordModelFault .unwrittenRead s
    | some x => complete (core x s).2 (core x s).1

/-- Execution of a stage command on its own: it touches no hidden state and emits no tap (R166, R176). -/
def executeStage (f : Params → Buf → Result) (s : State) : State :=
  execute (fun x s => (s, f s.hw x)) s

/-! ## Reset -/

/-- The reset step, R230: every register and buffer as at power-up; the hardwired parameters and `MF` stay
(R36), and so do the host's accesses to come and the replies it holds, which are not the block's. -/
def platformReset (s : State) : State :=
  { State.powerUp s.hw with mf := s.mf, inbox := s.inbox, replies := s.replies }

end Sys2Proof.Machine
end

