-- ==== Sys2Proof/Machine/Aead.lean ====
section
/-! DEFINITION. The AEAD adapter and its commands AEAD_ENC and AEAD_DEC (spec/42_aead.md R140 to R148). -/

namespace Sys2Proof.Machine

/-- aeadEncrypt, R144: `SEAL` with the fixed key, the fixed IV and empty associated data. -/
def aeadEnc (p : Params) (x : Buf) : Result :=
  if p.maxLen.toNat < x.length + tagLen then .err .capacity 0
  else .ok (p.cipher.sealBytes p.key p.iv associatedData x)

/-- aeadDecrypt, R145: the length check first, then the whole tag, and only then any output (R146). -/
def aeadDec (p : Params) (x : Buf) : Result :=
  if x.length < tagLen then .err .format 0
  else
    match p.cipher.openBytes p.key p.iv associatedData x with
    | none => .err .auth 0
    | some y => .ok y

/-- AEAD_ENC, R144; `DIAG` has no effect (R73). -/
def execAeadEnc (_diag : Bool) (s : State) : Host.Outcome State Fault Refusal :=
  .next (executeStage aeadEnc s)

/-- AEAD_DEC, R145; `DIAG` has no effect (R73). -/
def execAeadDec (_diag : Bool) (s : State) : Host.Outcome State Fault Refusal :=
  .next (executeStage aeadDec s)

end Sys2Proof.Machine
end

