-- ==== Sys2Proof/Machine/Framer.lean ====
section
/-! DEFINITION. The compression framer and its commands FRAME and UNFRAME (spec/41_framer.md R120 to R128). -/

namespace Sys2Proof.Machine

/-- frameAndCompress, R123. -/
def frame (p : Params) (x : Buf) : Result :=
  if p.maxLen.toNat < prefixLen + (p.codec.compress x).length then .err .capacity 0
  else .ok (be32 x.length ++ p.codec.compress x)

/-- unframeAndDecompress after the prefix `n` has been read, R126, its checks in the order of the rule and of
R202: the prefix against the capacity, the codec's answer, the decoded length, trailing bytes. -/
def unframeStream (p : Params) (n : Nat) (s : Buf) : Result :=
  if p.maxLen.toNat < n then .err .format 0
  else
    match p.codec.inflate s with
    | .malformed => .err .format 0
    | .truncated => .err .format 0
    | .ok d k =>
      if d.length ≠ n then .err .format 0
      else if k < s.length ∧ p.trailing = .reject then .err .format 0
      else .ok d

/-- unframeAndDecompress, R126. -/
def unframe (p : Params) (x : Buf) : Result :=
  if x.length < prefixLen then .err .format 0
  else unframeStream p (unbe32 (x.take prefixLen)) (x.drop prefixLen)

/-- FRAME, R123; `DIAG` has no effect (R73). -/
def execFrame (_diag : Bool) (s : State) : Host.Outcome State Fault Refusal :=
  .next (executeStage frame s)

/-- UNFRAME, R126; `DIAG` has no effect (R73). -/
def execUnframe (_diag : Bool) (s : State) : Host.Outcome State Fault Refusal :=
  .next (executeStage unframe s)

end Sys2Proof.Machine
end

