-- ==== Sys2Proof/Machine/Obfuscator.lean ====
section
/-! DEFINITION. The byte obfuscators OBF-A and OBF-B and their commands OBFA_FWD, OBFA_INV and OBFB
(spec/40_obfuscator.md R100 to R110). -/

namespace Sys2Proof.Machine

/-- `kA(i, L) = (L − i·L) mod 256`, the keystream of formula A, R100 and R108. -/
def keyA (i len : Nat) : Byte := BitVec.ofInt 8 ((len : Int) - (i : Int) * (len : Int))

/-- `kB(i, L) = (L − i) mod 256`, the keystream of formula B, R101 and R108. -/
def keyB (i len : Nat) : Byte := BitVec.ofInt 8 ((len : Int) - (i : Int))

/-- forwardFormulaA, R102: `y[i] = x[L − 1 − i] ^ kA(i, L)`. -/
def obfaFwd (x : Buf) : Buf :=
  List.ofFn fun i : Fin x.length => x[x.length - 1 - i.val] ^^^ keyA i.val x.length

/-- inverseFormulaA, R103, in the rule's second form: `y[j] = x[L − 1 − j] ^ kA(L − 1 − j, L)`. -/
def obfaInv (x : Buf) : Buf :=
  List.ofFn fun j : Fin x.length => x[x.length - 1 - j.val] ^^^ keyA (x.length - 1 - j.val) x.length

/-- formulaB, R104: `y[i] = x[i] ^ kB(i, L)`. -/
def obfb (x : Buf) : Buf :=
  List.ofFn fun i : Fin x.length => x[i.val] ^^^ keyB i.val x.length

/-- OBFA_FWD, R102; it cannot fail, and `DIAG` has no effect (R73). -/
def execObfaFwd (_diag : Bool) (s : State) : Host.Outcome State Fault Refusal :=
  .next (executeStage (fun _ x => .ok (obfaFwd x)) s)

/-- OBFA_INV, R103; it cannot fail, and `DIAG` has no effect (R73). -/
def execObfaInv (_diag : Bool) (s : State) : Host.Outcome State Fault Refusal :=
  .next (executeStage (fun _ x => .ok (obfaInv x)) s)

/-- OBFB, R104; it cannot fail, and `DIAG` has no effect (R73). -/
def execObfb (_diag : Bool) (s : State) : Host.Outcome State Fault Refusal :=
  .next (executeStage (fun _ x => .ok (obfb x)) s)

end Sys2Proof.Machine
end

