-- ==== Sys2Proof/Machine/Sequencer.lean ====
section
/-! DEFINITION. The pipeline sequencer and the commands NOP, ENCODE and DECODE (spec/43_sequencer.md R166 to
R181; spec/00_scope.md R10). -/

namespace Sys2Proof.Machine

/-- The stage commands a pipeline stage can be, R171. -/
inductive StageFn where
  | obfaFwd
  | obfaInv
  | obfb
  | frame
  | unframe
  | aeadEnc
  | aeadDec
deriving DecidableEq, Repr

/-- The core function of a stage command, R171. -/
def applyStage (p : Params) (f : StageFn) (x : Buf) : Result :=
  match f with
  | .obfaFwd => .ok (obfaFwd x)
  | .obfaInv => .ok (obfaInv x)
  | .obfb => .ok (obfb x)
  | .frame => frame p x
  | .unframe => unframe p x
  | .aeadEnc => aeadEnc p x
  | .aeadDec => aeadDec p x

/-- The stages of ENCODE, numbered as in R171. -/
def encodeStages : Layering → List (StageNo × StageFn)
  | .aOuter => [(1, .frame), (2, .obfb), (3, .aeadEnc), (4, .obfaInv)]
  | .aInner => [(1, .frame), (2, .obfaInv), (3, .aeadEnc), (4, .obfb)]

/-- The stages of DECODE, numbered as in R171. -/
def decodeStages : Layering → List (StageNo × StageFn)
  | .aOuter => [(1, .obfaFwd), (2, .aeadDec), (3, .obfb), (4, .unframe)]
  | .aInner => [(1, .obfb), (2, .aeadDec), (3, .obfaFwd), (4, .unframe)]

/-- The core-level pipeline: each stage on the previous stage's output, the first failure ending it with that
stage's number (R172, R173, R174). -/
def pipeline (p : Params) (stages : List (StageNo × StageFn)) (b : Buf) : Result :=
  match stages with
  | [] => .ok b
  | (n, f) :: rest =>
    match applyStage p f b with
    | .err k _ => .err k n
    | .ok y => pipeline p rest y

/-- encode, the core-level function of R172. -/
def encodeBytes (p : Params) (x : Buf) : Result := pipeline p (encodeStages p.layering) x

/-- decode, the core-level function of R173. -/
def decodeBytes (p : Params) (x : Buf) : Result := pipeline p (decodeStages p.layering) x

/-- A stage that succeeded: its output goes to `W` (R34), and to the observer if diagnostics are on (R176). -/
def stageDone (op : PipeOp) (diag : Bool) (n : StageNo) (y : Buf) (s : State) : State :=
  { s with work := y, obs := if diag then s.obs ++ [{ op := op, stage := n, buf := y }] else s.obs }

/-- The stage loop of R172 and R173 over the block's state: `STAGE` advances with each stage begun, `W` and
`OBS` with each stage that succeeds, and the first failure ends the loop (R174). -/
def runStages (op : PipeOp) (diag : Bool) (stages : List (StageNo × StageFn)) (b : Buf) (s : State) : State × Result :=
  match stages with
  | [] => (s, .ok b)
  | (n, f) :: rest =>
    match applyStage s.hw f b with
    | .err k _ => ({ s with stage := n }, .err k n)
    | .ok y => runStages op diag rest y (stageDone op diag n y { s with stage := n })

/-- NOP, R170: acceptance has already set `ERR`, `FAIL_STAGE` and `LAST_OP`. -/
def execNop (_diag : Bool) (s : State) : Host.Outcome State Fault Refusal :=
  .next (completeNop s)

/-- ENCODE, R172; `DIAG` enables the taps. -/
def execEncode (diag : Bool) (s : State) : Host.Outcome State Fault Refusal :=
  .next (execute (fun x s => runStages .encode diag (encodeStages s.hw.layering) x s) s)

/-- DECODE, R173; `DIAG` enables the taps. -/
def execDecode (diag : Bool) (s : State) : Host.Outcome State Fault Refusal :=
  .next (execute (fun x s => runStages .decode diag (decodeStages s.hw.layering) x s) s)

end Sys2Proof.Machine
end

