-- ==== Sys2Proof/Machine/Dispatch.lean ====
section
/-! DEFINITION. `DISPATCH` (spec/43_sequencer.md R166): one arm per command. -/

namespace Sys2Proof.Machine

/-- What the block does when a command runs: for NOP the completion in the acceptance step (R170), for every
other command the execution step of the latched command (R162). -/
def exec (i : Instr) (s : State) : Host.Outcome State Fault Refusal :=
  match i with
  | .nop diag => Sys2Proof.Machine.execNop diag s
  | .obfaFwd diag => Sys2Proof.Machine.execObfaFwd diag s
  | .obfaInv diag => Sys2Proof.Machine.execObfaInv diag s
  | .obfb diag => Sys2Proof.Machine.execObfb diag s
  | .frame diag => Sys2Proof.Machine.execFrame diag s
  | .unframe diag => Sys2Proof.Machine.execUnframe diag s
  | .aeadEnc diag => Sys2Proof.Machine.execAeadEnc diag s
  | .aeadDec diag => Sys2Proof.Machine.execAeadDec diag s
  | .encode diag => Sys2Proof.Machine.execEncode diag s
  | .decode diag => Sys2Proof.Machine.execDecode diag s

end Sys2Proof.Machine
end

