-- ==== Sys2Proof/Machine/Registers.lean ====
section
/-! DEFINITION. The host register window: the register map, what each read returns and does, and what each
plain write does (spec/10_state.md R24 to R32, R38, R40; spec/20_memory.md R50 to R54). A write of `CMD` starts a
command and stands in Agents.lean. -/

namespace Sys2Proof.Machine

/-- The registers of the map, R24. -/
inductive Register where
  | cmd
  | status
  | inLen
  | outLen
  | inPtr
  | inData
  | outPtr
  | outData
  | info
  | capacity
  | config
  /-- The reserved offsets 0x2C to 0xFC, R38. -/
  | reserved
deriving DecidableEq, Repr

/-- The register at a word offset of the window, R24. -/
def registerAt (offset : BitVec 8) : Register :=
  match offset.toNat with
  | 0x00 => .cmd
  | 0x04 => .status
  | 0x08 => .inLen
  | 0x0C => .outLen
  | 0x10 => .inPtr
  | 0x14 => .inData
  | 0x18 => .outPtr
  | 0x1C => .outData
  | 0x20 => .info
  | 0x24 => .capacity
  | 0x28 => .config
  | _ => .reserved

/-- The accesses the block answers, R52: 32 bits wide, at an offset that is a multiple of 4. -/
def wordAccess (width : Nat) (offset : BitVec 8) : Bool :=
  decide (width = 32) && decide (offset.toNat % 4 = 0)

/-- `INFO`, R32: `PREFIX_LEN`, `IV_LEN`, `KEY_LEN` and `TAG_LEN`, one byte each. -/
def infoWord : Word := BitVec.ofNat 8 prefixLen ++ 16#8 ++ 16#8 ++ BitVec.ofNat 8 tagLen

/-- `CONFIG`, R32: bit 0 `LAYERING`, bit 1 `TRAILING`. -/
def configWord (p : Params) : Word :=
  0#30 ++ BitVec.ofBool (decide (p.trailing = .ignore)) ++ BitVec.ofBool (decide (p.layering = .aInner))

/-- The byte a cell of `OUT` holds. A cell that no completion has written holds a free value (U18); no read
reaches one while `OUT[0..OUT_LEN)` is written, which every step keeps (`Safety.outputWritten`). -/
def outByte (s : State) (i : Nat) : Byte := (s.outBuf.read? i).getD (Config.unwrittenOut i)

/-- A read of `OUT_DATA`, R31. -/
def readOutData (s : State) : Word × State :=
  if s.status.busy = false ∧ s.outPtr < s.outLen then
    ((outByte s s.outPtr.toNat).setWidth 32, { s with outPtr := s.outPtr + 1 })
  else (0, s)

/-- The value a word read of a register returns, and the state after it; only `OUT_DATA` has a side effect
(R54). -/
def readRegister (r : Register) (s : State) : Word × State :=
  match r with
  | .cmd => (s.cmd, s)
  | .status => (s.status.word, s)
  | .inLen => (s.inLen, s)
  | .outLen => (s.outLen, s)
  | .inPtr => (s.inPtr, s)
  | .inData => (0, s)
  | .outPtr => (s.outPtr, s)
  | .outData => readOutData s
  | .info => (infoWord, s)
  | .capacity => (s.hw.maxLen, s)
  | .config => (configWord s.hw, s)
  | .reserved => (0, s)

/-- A host read, R52: of another width or at another offset it returns 0 and does nothing. -/
def hostRead (width : Nat) (offset : BitVec 8) (s : State) : Word × State :=
  if wordAccess width offset then readRegister (registerAt offset) s else (0, s)

/-- A write of `IN_DATA` while idle, R29. -/
def writeInData (v : Word) (s : State) : State :=
  if s.inPtr < s.hw.maxLen then
    { s with inBuf := s.inBuf.write s.inPtr.toNat (v.extractLsb' 0 8), inPtr := s.inPtr + 1 }
  else s

/-- A word write of a register other than `CMD`, while idle: R27, R29, R31; read-only and reserved ones ignore
it (R26, R28, R31, R32, R38). -/
def writeRegister (r : Register) (v : Word) (s : State) : State :=
  match r with
  | .cmd => s
  | .status => s
  | .inLen => { s with inLen := v }
  | .outLen => s
  | .inPtr => { s with inPtr := v }
  | .inData => writeInData v s
  | .outPtr => { s with outPtr := v }
  | .outData => s
  | .info => s
  | .capacity => s
  | .config => s
  | .reserved => s

end Sys2Proof.Machine
end

