-- ==== Sys2Proof/Machine/Agents.lean ====
section
/-! DEFINITION. The two agents (spec/00_scope.md R12): what a host access does to the block, and the block's own
turn (spec/43_sequencer.md R160 to R162; spec/20_memory.md R52, R58). -/

namespace Sys2Proof.Machine

/-- A write of `CMD` while idle, R160: the fetch and acceptance of a command. NOP and illegal words complete
here; any other command is latched, and its execution step is then enabled. -/
def acceptCommand (v : Word) (s : State) : Host.Outcome State Fault Refusal :=
  match decode v with
  | .error _ => .next (completeIllegal (acceptWord v s))
  | .ok (.nop diag) => exec (.nop diag) (acceptWord v s)
  | .ok _ => .next (latchCommand v (acceptWord v s))

/-- A host write. Any write while `BUSY` = 1 is ignored (R40), and so is one of another width or at another
offset (R52). -/
def hostWrite (width : Nat) (offset : BitVec 8) (v : Word) (s : State) : Host.Outcome State Fault Refusal :=
  if wordAccess width offset && !s.status.busy then
    if registerAt offset = .cmd then acceptCommand v s else .next (writeRegister (registerAt offset) v s)
  else .next s

/-- The command that `LATCH_OP` and `LATCH_DIAG` hold. -/
def latchedCommand (s : State) : Option Instr := commandOf s.latchOp s.latchDiag

/-- The block's turn, R162: enabled exactly when `BUSY` = 1. A block with nothing to do leaves the state as it
is. So does a command that `model_fault` has stopped: nothing but reset can change its input (R40), so its
execution finds the same unwritten cell again (R205, U21). -/
def blockTurn (s : State) : Host.Outcome State Fault Refusal :=
  if s.status.busy then
    match latchedCommand s with
    | some i => exec i s
    | none => .next s
  else .next s

/-- One event: a host access, a turn of the block, or a reset step. The host keeps the value of a read. -/
def handleEvent (e : Event) (s : State) : Host.Outcome State Fault Refusal :=
  match e with
  | .write width offset v => hostWrite width offset v s
  | .read width offset =>
    .next { (hostRead width offset s).2 with replies := s.replies ++ [(hostRead width offset s).1] }
  | .blockTurn => blockTurn s
  | .reset => .next (platformReset s)

/-- One step of the two agents, R58: the next event, or, when the host is silent, the block's turn, so that an
accepted command's execution step eventually takes place (R165). -/
def advance (s : State) : Host.Outcome State Fault Refusal :=
  match s.inbox with
  | [] => blockTurn s
  | e :: rest => handleEvent e { s with inbox := rest }

/-- The command word of a table row's bits, zero above them. -/
def wordOfBits (nbits w : Nat) : Word := BitVec.ofNat 32 (w % 2 ^ nbits)

/-- The state whose next step runs the command word `v` and nothing else. A command that executes is placed as
accepted, with the block's turn next (R160, R162); NOP and an illegal word run in the acceptance step itself
(R170, R161), so for them the write of `CMD` is next. -/
def placeCommand (v : Word) (s : State) : State :=
  match decode v with
  | .error _ =>
    { s with status := { s.status with busy := false }, inbox := .write 32 0x00 v :: s.inbox }
  | .ok (.nop _) =>
    { s with status := { s.status with busy := false }, inbox := .write 32 0x00 v :: s.inbox }
  | .ok _ => { latchCommand v (acceptWord v s) with inbox := .blockTurn :: s.inbox }

end Sys2Proof.Machine
end

