-- ==== Sys2Proof/Machine/Step.lean ====
section
/-! DEFINITION. One step of the machine, and where the next command is placed for it. -/

namespace Sys2Proof.Machine

/-- One step: the next host access, reset, or the block's turn (Agents.lean `advance`). -/
def step (s : State) : Host.Outcome State Fault Refusal := advance s

/-- `s` with a command word placed so that the very next step runs it (Agents.lean `placeCommand`, log
entry 7). -/
def State.withFetchWord (s : State) (nbits w : Nat) : State := placeCommand (wordOfBits nbits w) s

end Sys2Proof.Machine
end

