-- ==== Sys2Proof/Machine/HostProgram.lean ====
section
/-! DEFINITION. Host programs: the notation of spec/30_encoding.md R84 to R86 as data, what each statement does
to the block, and the place of the register window in the host's address space (spec/20_memory.md R50, R56).
Nothing of the block depends on this file: for the block a host is the accesses it makes. -/

namespace Sys2Proof.Machine

/-- The offset of a register, R24; any reserved offset stands for `reserved`. -/
def offsetOf : Register → BitVec 8
  | .cmd => 0x00
  | .status => 0x04
  | .inLen => 0x08
  | .outLen => 0x0C
  | .inPtr => 0x10
  | .inData => 0x14
  | .outPtr => 0x18
  | .outData => 0x1C
  | .info => 0x20
  | .capacity => 0x24
  | .config => 0x28
  | .reserved => 0x2C

/-- A bus triple of R86: `W <offset> <data32>` or `R <offset>`. -/
inductive BusTriple where
  | w (offset : BitVec 8) (data : Word)
  | r (offset : BitVec 8)
deriving DecidableEq, Repr

/-- The host access of a bus triple: one aligned or misaligned 32-bit access. -/
def busEvent : BusTriple → Event
  | .w offset data => .write 32 offset data
  | .r offset => .read 32 offset

/-- The window offset of a host address, `none` outside the 256-byte window at `REG_BASE` (R50). -/
def windowOffset (p : Params) (address : Nat) : Option (BitVec 8) :=
  if p.regBase ≤ address ∧ address < p.regBase + 256 then some (BitVec.ofNat 8 (address - p.regBase)) else none

/-- The part of a read value that an `<expr>` of R84 names: the whole word, or a field of a `STATUS` value. -/
inductive ValuePart where
  | whole
  | busy
  | done
  | err
  | lastOp
  | failStage
deriving DecidableEq, Repr

/-- The value of that part (R26). -/
def partValue (part : ValuePart) (v : Word) : Nat :=
  match part with
  | .whole => v.toNat
  | .busy => (v.extractLsb' 0 1).toNat
  | .done => (v.extractLsb' 1 1).toNat
  | .err => (v.extractLsb' 2 3).toNat
  | .lastOp => (v.extractLsb' 8 4).toNat
  | .failStage => (v.extractLsb' 12 3).toNat

/-- A statement of a host program, R84. Variables and labels are numbers. -/
inductive HostStmt where
  | wr (r : Register) (imm : Word)
  | rd (r : Register) (var : Nat)
  | label (l : Nat)
  | bz (var : Nat) (part : ValuePart) (l : Nat)
  | bnz (var : Nat) (part : ValuePart) (l : Nat)
deriving DecidableEq, Repr

/-- A running host program. -/
structure HostThread where
  /-- The statements. -/
  prog : List HostStmt
  /-- The position of the next one. -/
  pos : Nat
  /-- The host variables, the latest binding first. -/
  vars : List (Nat × Word)
deriving DecidableEq, Repr

/-- A host variable's value; an unbound one reads 0. -/
def hostVar (h : HostThread) (x : Nat) : Word := (h.vars.lookup x).getD 0

/-- The position of a label, or the end of the program if there is none. -/
def labelPos (h : HostThread) (l : Nat) : Nat := h.prog.findIdx (· == .label l)

/-- The host's turn: its next statement. A label or a branch is host control flow and leaves the block alone
(R84: "the block never branches"). -/
def hostTurn (h : HostThread) (s : State) : HostThread × Host.Outcome State Fault Refusal :=
  match h.prog[h.pos]? with
  | none => (h, .next s)
  | some (.wr r imm) => ({ h with pos := h.pos + 1 }, handleEvent (.write 32 (offsetOf r) imm) s)
  | some (.rd r x) =>
    ({ h with pos := h.pos + 1, vars := (x, (hostRead 32 (offsetOf r) s).1) :: h.vars },
      handleEvent (.read 32 (offsetOf r)) s)
  | some (.label _) => ({ h with pos := h.pos + 1 }, .next s)
  | some (.bz x part l) =>
    ({ h with pos := if partValue part (hostVar h x) = 0 then labelPos h l else h.pos + 1 }, .next s)
  | some (.bnz x part l) =>
    ({ h with pos := if partValue part (hostVar h x) = 0 then h.pos + 1 else labelPos h l }, .next s)

/-! ## Pseudo-instructions, R85 -/

/-- `CMD op` and `CMD op, DIAG`. -/
def pseudoCmd (i : Instr) : List HostStmt := [.wr .cmd (encode i)]

/-- `WAIT`, with its label and the variable `s`. -/
def pseudoWait (l x : Nat) : List HostStmt := [.label l, .rd .status x, .bz x .done l]

/-- `RUN op[, DIAG]`. -/
def pseudoRun (i : Instr) (l x : Nat) : List HostStmt := pseudoCmd i ++ pseudoWait l x

/-- `LOAD b0 .. b(n−1)`. -/
def pseudoLoad (bs : Buf) : List HostStmt :=
  .wr .inPtr 0 :: bs.map (fun b => .wr .inData (b.setWidth 32)) ++ [.wr .inLen (BitVec.ofNat 32 bs.length)]

/-- `UNLOAD -> buf` for an output of `n` bytes: `n` goes to variable `x`, byte `k` to variable `x + 1 + k`. -/
def pseudoUnload (n x : Nat) : List HostStmt :=
  .wr .outPtr 0 :: .rd .outLen x :: (List.range n).map (fun k => .rd .outData (x + 1 + k))

/-- `MOVE` of the bytes `t` that the `UNLOAD` read. -/
def pseudoMove (t : Buf) (x : Nat) : List HostStmt := pseudoUnload t.length x ++ pseudoLoad t

/-- `CLEAR`. -/
def pseudoClear (l x : Nat) : List HostStmt := pseudoRun (.nop false) l x

end Sys2Proof.Machine
end

