-- ==== Sys2Proof/Safety.lean ====
section
/-! DEFINITION. The words the statements use: what input a command has, how it ends, what it leaves alone, the
invariant of the block, and what a host can see of it. -/

namespace Sys2Proof.Safety

open Sys2Proof.Machine

/-- The next command's input is `x`: `IN_LEN` is its length and within `MAX_LEN`, and `IN[0..IN_LEN)` holds its
bytes (R27, R162). -/
def HasInput (s : State) (x : Buf) : Prop :=
  x.length = s.inLen.toNat ∧ s.inLen.toNat ≤ s.hw.maxLen.toNat ∧
    ∀ i, i < x.length → s.inBuf.read? i = x[i]?

/-- What no command changes: the hardwired parameters, `CMD`, `LAST_OP`, the whole input side and the host's own
lists (R22, R27, R29, R163, R200, R244), and the latches. That these stay is a rule's while `BUSY` is 1 (R160) and
after an error (R200); after a success it is the model's choice (log entry 18), since R34 and U18 of
93_implementation_defined.md leave the latches of an idle block open. -/
structure InputSideKept (s t : State) : Prop where
  hw : t.hw = s.hw
  cmd : t.cmd = s.cmd
  lastOp : t.status.lastOp = s.status.lastOp
  inLen : t.inLen = s.inLen
  inPtr : t.inPtr = s.inPtr
  inBuf : t.inBuf = s.inBuf
  latchOp : t.latchOp = s.latchOp
  latchDiag : t.latchDiag = s.latchDiag
  inbox : t.inbox = s.inbox
  replies : t.replies = s.replies

/-- What a stage command on its own also leaves alone: the observer trace and `MF` (R36, R166, R176), and `W`. After
an error R200 says that of `W`; after a success it is the model's choice (log entry 12), since R34 and U18 of
93_implementation_defined.md leave `W` open in an idle block. -/
structure TraceKept (s t : State) : Prop where
  work : t.work = s.work
  obs : t.obs = s.obs
  mf : t.mf = s.mf

/-- The command of `s` ended in `t` with the result `y`: R163 for `Ok`, every cell of `OUT` included. -/
structure Succeeded (s t : State) (y : Buf) : Prop where
  outLen : t.outLen.toNat = y.length
  written : ∀ i, i < y.length → t.outBuf.read? i = y[i]?
  beyond : ∀ a, y.length ≤ a → t.outBuf.read? a = s.outBuf.read? a
  outPtr : t.outPtr = 0
  stage : t.stage = 0
  busy : t.status.busy = false
  done : t.status.done = true
  err : t.status.err = .none
  failStage : t.status.failStage = 0

/-- The command of `s` ended in `t` with an error: R163 for `Err` and R200, every cell of `OUT` included. -/
structure Failed (s t : State) (c : ErrCode) (n : StageNo) : Prop where
  outLen : t.outLen = 0
  outBuf : t.outBuf = s.outBuf
  outPtr : t.outPtr = 0
  stage : t.stage = 0
  busy : t.status.busy = false
  done : t.status.done = true
  err : t.status.err = c
  failStage : t.status.failStage = n

/-- The taps that a pipeline command adds to `OBS` for the outputs of its first stages (R176). -/
def taps (op : PipeOp) (diag : Bool) (outputs : List (StageNo × Buf)) : List Tap :=
  if diag then outputs.map (fun o => { op := op, stage := o.1, buf := o.2 }) else []

/-- The codes of R201. -/
def errNumber : ErrCode → Nat
  | .none => 0
  | .format => 1
  | .auth => 2
  | .capacity => 3
  | .illegal => 4

/-- The number a read of `STATUS` returns, field by field as in the table of R26. -/
def statusNumber (f : Status) : Nat :=
  f.busy.toNat + 2 * f.done.toNat + 4 * errNumber f.err + 256 * f.lastOp.toNat + 4096 * f.failStage.val

/-- What stage 2 of ENCODE does to the frame, R171. -/
def encodeStage2 (lay : Layering) (x : Buf) : Buf :=
  match lay with
  | .aOuter => obfb x
  | .aInner => obfaInv x

/-- What stage 1 of DECODE does to the PKT bytes, R171. -/
def decodeStage1 (lay : Layering) (x : Buf) : Buf :=
  match lay with
  | .aOuter => obfaFwd x
  | .aInner => obfb x

/-- What stage 3 of DECODE does to the opened ciphertext, R171. -/
def decodeStage3 (lay : Layering) (x : Buf) : Buf :=
  match lay with
  | .aOuter => obfb x
  | .aInner => obfaFwd x

/-- The rows of R181 for the recovered frame `f`, whose length is `L` − 16, in the rule's order. -/
def frameOutcome (p : Params) (f : Buf) : ErrCode × StageNo :=
  if f.length < 4 then (.format, 4)
  else if p.maxLen.toNat < unbe32 (f.take 4) then (.format, 4)
  else
    match p.codec.inflate (f.drop 4) with
    | .malformed => (.format, 4)
    | .truncated => (.format, 4)
    | .ok y k =>
      if y.length ≠ unbe32 (f.take 4) then (.format, 4)
      else if k < f.length - 4 ∧ p.trailing = .reject then (.format, 4)
      else (.none, 0)

/-- The table of R181: `ERR` and `FAIL_STAGE` of DECODE for the PKT bytes `x`. -/
def decodeOutcome (p : Params) (x : Buf) : ErrCode × StageNo :=
  if x.length < 16 then (.format, 2)
  else
    match p.cipher.openBytes p.key p.iv [] (decodeStage1 p.layering x) with
    | none => (.auth, 2)
    | some y => frameOutcome p (decodeStage3 p.layering y)

/-- A command that is not NOP: it has an execution step (R160, R166). -/
def executes (i : Instr) : Bool := opcodeOf i != 0

/-- A host access, as opposed to a reset or a turn of the block. -/
def hostAccess : Event → Bool
  | .write _ _ _ => true
  | .read _ _ => true
  | .blockTurn => false
  | .reset => false

/-- The values the reads among some events return while nothing changes the block's registers. -/
def readValues (s : State) : List Event → List Word
  | [] => []
  | .read width offset :: es => (hostRead width offset s).1 :: readValues s es
  | .write _ _ _ :: es => readValues s es
  | .blockTurn :: es => readValues s es
  | .reset :: es => readValues s es

/-- The named assumption `TAMPER` on the cipher (R143, U2 of 93_implementation_defined.md): `OPEN` rejects every
ciphertext that `SEAL` did not produce. The model does not assume it; a claim that needs it takes it as a
hypothesis. -/
def Tamper (p : Params) : Prop :=
  ∀ c : Buf, tagLen ≤ c.length → (∀ x, p.cipher.sealBytes p.key p.iv associatedData x ≠ c) →
    p.cipher.openBytes p.key p.iv associatedData c = none

/-- The named assumption `STREAM` on the cipher (R147, U4 of 93_implementation_defined.md): the ciphertext body is
the plaintext XOR a keystream fixed by `KEY` and `IV`. The model does not assume it either. -/
def Stream (p : Params) : Prop :=
  ∃ keystream : Nat → Byte, ∀ (x : Buf) (i : Nat) (b : Byte), x[i]? = some b →
    (p.cipher.sealBytes p.key p.iv associatedData x)[i]? = some (b ^^^ keystream i)

/-- A final state: no command is in flight and no model fault has been recorded (R36, R164). -/
def final (s : State) : Bool := !s.status.busy && s.mf.isEmpty

/-- Every cell of `OUT[0..OUT_LEN)` has been written. -/
def outputWritten (s : State) : Prop := ∀ i, i < s.outLen.toNat → (s.outBuf.read? i).isSome

/-- The invariant of the block. -/
structure Invariant (s : State) : Prop where
  /-- R7: 1 ≤ `MAX_LEN`, `KEY_BYTE` ≠ `IV_BYTE`, and `REG_BASE` is 4-byte aligned (R50). -/
  params : s.hw.wf = true
  /-- The cells of `IN` are in canonical form. -/
  inWf : s.inBuf.wf
  /-- The cells of `OUT` are in canonical form. -/
  outWf : s.outBuf.wf
  /-- `IN` has the indices 0..`MAX_LEN`−1 (R22). -/
  inBound : ∀ c ∈ s.inBuf, c.1 < s.hw.maxLen.toNat
  /-- `OUT` has the indices 0..`MAX_LEN`−1 (R23). -/
  outBound : ∀ c ∈ s.outBuf, c.1 < s.hw.maxLen.toNat
  /-- `W` has the capacity `MAX_LEN` (R34). -/
  workBound : s.work.length ≤ s.hw.maxLen.toNat
  /-- `OUT_LEN` is at most `MAX_LEN` (R28). -/
  outLenBound : s.outLen.toNat ≤ s.hw.maxLen.toNat
  /-- No host read reaches a cell of `OUT` that was never written (R23, R31). -/
  outWritten : outputWritten s
  /-- `BUSY` = 1 and `DONE` = 1 never hold together (R26). -/
  notBoth : ¬(s.status.busy = true ∧ s.status.done = true)
  /-- `STAGE` is 0 between steps (R21, R55). -/
  stageZero : s.stage = 0
  /-- `LAST_OP` is the `OP` of `CMD` (R26, R160). -/
  lastOp : s.status.lastOp = opField s.cmd
  /-- While a command executes no result shows (R40, R241). -/
  busyClear : s.status.busy = true →
    s.status.err = .none ∧ s.status.failStage = 0 ∧ s.outLen = 0 ∧ s.outPtr = 0
  /-- While a command executes the latches hold the command that `CMD` holds, and it is legal and not NOP (R160). -/
  busyLatch : s.status.busy = true →
    ∃ i, executes i = true ∧ decode s.cmd = .ok i ∧ latchedCommand s = some i
  /-- `FAIL_STAGE` is nonzero only for a stage error (R175). -/
  stageError : s.status.failStage ≠ 0 → s.status.err ≠ .none ∧ s.status.err ≠ .illegal
  /-- No output is readable after an error (R200). -/
  errorNoOutput : s.status.err ≠ .none → s.outLen = 0
  /-- Every tap is of one of the four stages, with a buffer within the capacity (R33, R176). -/
  tapStages : ∀ e ∈ s.obs, e.stage ≠ 0 ∧ e.buf.length ≤ s.hw.maxLen.toNat
  /-- `MF` is a set (R36). -/
  mfOnce : s.mf.Nodup

/-- Two states no host can tell apart: they agree on everything but `W`, the latches of an idle block, and the
cells of `OUT` at or beyond `OUT_LEN` (R23, R34, R39, U18 of 93_implementation_defined.md). -/
structure LooksAlike (s t : State) : Prop where
  hw : t.hw = s.hw
  cmd : t.cmd = s.cmd
  status : t.status = s.status
  inLen : t.inLen = s.inLen
  outLen : t.outLen = s.outLen
  inPtr : t.inPtr = s.inPtr
  outPtr : t.outPtr = s.outPtr
  inBuf : t.inBuf = s.inBuf
  stage : t.stage = s.stage
  obs : t.obs = s.obs
  mf : t.mf = s.mf
  inbox : t.inbox = s.inbox
  replies : t.replies = s.replies
  latches : s.status.busy = true → t.latchOp = s.latchOp ∧ t.latchDiag = s.latchDiag
  output : ∀ i, i < s.outLen.toNat → t.outBuf.read? i = s.outBuf.read? i

end Sys2Proof.Safety
end

