-- ==== Sys2Proof/Certificates/Slice0/Obligations.lean ====
section
/-! DEFINITION. The statements about the block, each from the numbered rules of spec/ that its docstring names.

Where a statement gives the whole next state of an idle block, or says that nothing else changes in it, the rules say
so of everything but `LATCH_OP`, `LATCH_DIAG` and `W`: R34 and U18 leave these open in an idle block, and that they
stay as they are is the model's choice (log entries 12 and 18). -/

open Sys2Proof Sys2Proof.Machine Sys2Proof.Safety

/-! ## Encoding -/

/-- R75: the twenty command words of the rule's table are the ten commands, without and with `DIAG`. -/
def Obligations.DecodeReadsTheTableOfCommandWords : Prop :=
  decode 0x00000000 = .ok (.nop false) ∧ decode 0x00000010 = .ok (.nop true) ∧
  decode 0x00000001 = .ok (.obfaFwd false) ∧ decode 0x00000011 = .ok (.obfaFwd true) ∧
  decode 0x00000002 = .ok (.obfaInv false) ∧ decode 0x00000012 = .ok (.obfaInv true) ∧
  decode 0x00000003 = .ok (.obfb false) ∧ decode 0x00000013 = .ok (.obfb true) ∧
  decode 0x00000004 = .ok (.frame false) ∧ decode 0x00000014 = .ok (.frame true) ∧
  decode 0x00000005 = .ok (.unframe false) ∧ decode 0x00000015 = .ok (.unframe true) ∧
  decode 0x00000006 = .ok (.aeadEnc false) ∧ decode 0x00000016 = .ok (.aeadEnc true) ∧
  decode 0x00000007 = .ok (.aeadDec false) ∧ decode 0x00000017 = .ok (.aeadDec true) ∧
  decode 0x00000008 = .ok (.encode false) ∧ decode 0x00000018 = .ok (.encode true) ∧
  decode 0x00000009 = .ok (.decode false) ∧ decode 0x00000019 = .ok (.decode true)

/-- R70, R71, R76: over all 2^32 words, a word decodes to a command exactly when it is that command's encoding;
every other word is refused, and the refused words are the illegal ones of R72. -/
def Obligations.DecodeAndEncodeAgreeOnEveryWord : Prop :=
  (∀ (v : Word) (i : Instr), decode v = .ok i ↔ v = encode i) ∧
  (∀ v : Word, (∃ e, decode v = .error e) ↔ legalWord v = false)

/-! ## Acceptance and the step -/

/-- R40, R160, R161, R170: the whole effect of a word write of `CMD`, for every word and every state.
That `W` and the latches of the idle block stay as they are after NOP is the model's choice (log entry 18). -/
def Obligations.CmdWriteIsAcceptedAsTheRuleSays : Prop :=
  ∀ (s : State) (v : Word) (rest : List Event), s.inbox = .write 32 0x00 v :: rest →
    step s = .next (
      if s.status.busy = true then { s with inbox := rest }
      else if v.toNat % 16 ≥ 10 ∨ v.toNat / 32 ≠ 0 then
        { s with
          inbox := rest, cmd := v, outLen := 0, outPtr := 0,
          status := { busy := false, done := true, err := .illegal, lastOp := v.setWidth 4, failStage := 0 } }
      else if v.toNat % 16 = 0 then
        { s with
          inbox := rest, cmd := v,
          status := { busy := false, done := true, err := .none, lastOp := 0, failStage := 0 } }
      else
        { s with
          inbox := rest, cmd := v, outLen := 0, outPtr := 0,
          latchOp := v.setWidth 4, latchDiag := v.getLsbD 4, stage := 0,
          status := { busy := true, done := false, err := .none, lastOp := v.setWidth 4, failStage := 0 } })

/-- The step runs the decoded command (R160, R162, R166, R170). A write of `CMD` that decodes to NOP is a step of
`exec` on the accepted state. A write that decodes to any other command latches it, and the block's next turn,
given by the schedule or taken because the host is silent, is a step of `exec` on the state as it then is.
Two clauses are the model's choice and no rule's: that an empty inbox gives the block its turn (`s.inbox = []`, log
entry 4), and that `exec` of NOP is its completion inside the acceptance step (log entry 16). -/
def Obligations.AStepRunsTheDecodedCommand : Prop :=
  (∀ (s : State) (v : Word) (d : Bool) (rest : List Event),
    s.status.busy = false → s.inbox = .write 32 0x00 v :: rest → decode v = .ok (.nop d) →
    step s = exec (.nop d) (acceptWord v { s with inbox := rest })) ∧
  (∀ (s : State) (v : Word) (i : Instr) (rest : List Event),
    s.status.busy = false → s.inbox = .write 32 0x00 v :: rest → decode v = .ok i → executes i = true →
    ∃ t, step s = .next t ∧ t.inbox = rest ∧ t.status.busy = true ∧
      t.latchOp = opcodeOf i ∧ t.latchDiag = diagOf i) ∧
  (∀ (s : State) (i : Instr), s.status.busy = true → s.latchOp = opcodeOf i → s.latchDiag = diagOf i →
    (s.inbox = [] → step s = exec i s) ∧
    (∀ rest, s.inbox = .blockTurn :: rest → step s = exec i { s with inbox := rest }))

/-- The model's own (log entry 7): `withFetchWord` places a command so that the very next step runs it. -/
def Obligations.APlacedCommandRunsInTheNextStep : Prop :=
  (∀ (s : State) (d : Bool),
    step (s.withFetchWord 32 (encode (.nop d)).toNat) =
      exec (.nop d) (acceptWord (encode (.nop d)) { s with status := { s.status with busy := false } })) ∧
  (∀ (s : State) (i : Instr), executes i = true →
    step (s.withFetchWord 32 (encode i).toNat) = exec i (latchCommand (encode i) (acceptWord (encode i) s)))

/-- R40: a host write of any width at any offset while `BUSY` = 1 changes nothing at all, and a word write of a
read-only or reserved offset changes nothing in any state. -/
def Obligations.WritesWhileBusyOrToReadOnlyOffsetsAreIgnored : Prop :=
  ∀ (s : State) (width : Nat) (offset : BitVec 8) (v : Word) (rest : List Event),
    s.inbox = .write width offset v :: rest →
    (s.status.busy = true ∨
      offset ∈ [0x04#8, 0x0C#8, 0x1C#8, 0x20#8, 0x24#8, 0x28#8] ∨ 0x2C ≤ offset.toNat) →
    step s = .next { s with inbox := rest }

/-- R52: an access of another width, or at an offset that is no multiple of 4, is ignored if it is a write and
returns 0 if it is a read; it changes no register, buffer or pointer. -/
def Obligations.NarrowAndMisalignedAccessesAreIgnored : Prop :=
  ∀ (s : State) (width : Nat) (offset : BitVec 8) (rest : List Event),
    (width ≠ 32 ∨ offset.toNat % 4 ≠ 0) →
    (∀ v : Word, s.inbox = .write width offset v :: rest → step s = .next { s with inbox := rest }) ∧
    (s.inbox = .read width offset :: rest → step s = .next { s with inbox := rest, replies := s.replies ++ [0] })

/-- R38: the reserved offsets 0x2C to 0xFC read 0 and ignore writes. -/
def Obligations.ReservedOffsetsReadZeroAndIgnoreWrites : Prop :=
  ∀ (s : State) (offset : BitVec 8) (rest : List Event), 0x2C ≤ offset.toNat → offset.toNat % 4 = 0 →
    (∀ v : Word, s.inbox = .write 32 offset v :: rest → step s = .next { s with inbox := rest }) ∧
    (s.inbox = .read 32 offset :: rest → step s = .next { s with inbox := rest, replies := s.replies ++ [0] })

/-- R24, R25, R26, R27, R28, R29, R31, R54: a word read of a plain register returns its value and has no other
effect; `STATUS` reads as `Safety.statusNumber` spells it out. -/
def Obligations.PlainRegisterReadsReturnTheRegister : Prop :=
  ∀ (s : State) (offset : BitVec 8) (rest : List Event) (value : Nat),
    s.inbox = .read 32 offset :: rest →
    ((offset = 0x00 ∧ value = s.cmd.toNat) ∨
     (offset = 0x04 ∧ value = statusNumber s.status) ∨
     (offset = 0x08 ∧ value = s.inLen.toNat) ∨ (offset = 0x0C ∧ value = s.outLen.toNat) ∨
     (offset = 0x10 ∧ value = s.inPtr.toNat) ∨ (offset = 0x14 ∧ value = 0) ∨
     (offset = 0x18 ∧ value = s.outPtr.toNat)) →
    step s = .next { s with inbox := rest, replies := s.replies ++ [BitVec.ofNat 32 value] }

/-- R32: `INFO`, `CAPACITY` and `CONFIG` read their hardwired values, ignore writes, and survive reset. -/
def Obligations.IdentificationRegistersAreHardwired : Prop :=
  (∀ (s : State) (rest : List Event),
    (s.inbox = .read 32 0x20 :: rest →
      step s = .next { s with inbox := rest, replies := s.replies ++ [0x04101010] }) ∧
    (s.inbox = .read 32 0x24 :: rest →
      step s = .next { s with inbox := rest, replies := s.replies ++ [s.hw.maxLen] }) ∧
    (s.inbox = .read 32 0x28 :: rest →
      step s = .next { s with
        inbox := rest,
        replies := s.replies ++ [BitVec.ofNat 32
          ((if s.hw.layering = .aInner then 1 else 0) + (if s.hw.trailing = .ignore then 2 else 0))] })) ∧
  (∀ (s : State) (offset : BitVec 8) (v : Word) (rest : List Event), offset ∈ [0x20#8, 0x24#8, 0x28#8] →
    s.inbox = .write 32 offset v :: rest → step s = .next { s with inbox := rest }) ∧
  (∀ s t : State, step s = .next t → t.hw = s.hw)

/-- R27, R29, R31: an idle block stores `IN_LEN`, `IN_PTR` and `OUT_PTR` as written, and nothing else changes. -/
def Obligations.IdleWritesStoreLengthAndPointers : Prop :=
  ∀ (s : State) (v : Word) (rest : List Event), s.status.busy = false →
    (s.inbox = .write 32 0x08 v :: rest → step s = .next { s with inbox := rest, inLen := v }) ∧
    (s.inbox = .write 32 0x10 v :: rest → step s = .next { s with inbox := rest, inPtr := v }) ∧
    (s.inbox = .write 32 0x18 v :: rest → step s = .next { s with inbox := rest, outPtr := v })

/-- R29, the `IN_DATA` port: busy, pointer at or beyond `MAX_LEN`, or one byte written and the pointer moved on. -/
def Obligations.InDataWriteStoresOneByte : Prop :=
  ∀ (s : State) (v : Word) (rest : List Event), s.inbox = .write 32 0x14 v :: rest →
    ((s.status.busy = true ∨ s.hw.maxLen.toNat ≤ s.inPtr.toNat) → step s = .next { s with inbox := rest }) ∧
    (s.status.busy = false → s.inPtr.toNat < s.hw.maxLen.toNat →
      ∃ m : Memory, step s = .next { s with inbox := rest, inPtr := s.inPtr + 1, inBuf := m } ∧
        (s.inPtr + 1).toNat = s.inPtr.toNat + 1 ∧
        m.read? s.inPtr.toNat = some (BitVec.ofNat 8 (v.toNat % 256)) ∧
        ∀ a, a ≠ s.inPtr.toNat → m.read? a = s.inBuf.read? a)

/-- R31, the `OUT_DATA` port: the next byte of the result and the pointer moved on, or 0 and no effect. -/
def Obligations.OutDataReadReturnsTheNextByte : Prop :=
  ∀ (s : State) (rest : List Event), s.inbox = .read 32 0x1C :: rest →
    ((s.status.busy = true ∨ s.outLen.toNat ≤ s.outPtr.toNat) →
      step s = .next { s with inbox := rest, replies := s.replies ++ [0] }) ∧
    (∀ b : Byte, s.status.busy = false → s.outPtr.toNat < s.outLen.toNat →
      s.outBuf.read? s.outPtr.toNat = some b →
      step s = .next { s with inbox := rest, outPtr := s.outPtr + 1, replies := s.replies ++ [b.setWidth 32] } ∧
      (s.outPtr + 1).toNat = s.outPtr.toNat + 1)

/-- R230, R231, R36: a reset step, in any state, a command in flight or not, gives every register of R39 its
value, every cell of `IN` the mark `⊥` and an empty `OBS`; it keeps the hardwired parameters and `MF`. What it
leaves in `OUT`, `W` and the latches is the model's choice (log entry 5) and is not stated. -/
def Obligations.ResetStepGivesTheResetValues : Prop :=
  ∀ (s : State) (rest : List Event), s.inbox = .reset :: rest →
    ∃ t, step s = .next t ∧
      t.cmd = 0 ∧ t.status = { busy := false, done := false, err := .none, lastOp := 0, failStage := 0 } ∧
      t.inLen = 0 ∧ t.outLen = 0 ∧ t.inPtr = 0 ∧ t.outPtr = 0 ∧ (∀ a, t.inBuf.read? a = none) ∧
      t.stage = 0 ∧ t.obs = [] ∧ t.hw = s.hw ∧ t.mf = s.mf ∧ t.inbox = rest ∧ t.replies = s.replies

/-- R39, R230: the power-up state holds the reset values of the rule's table. -/
def Obligations.PowerUpStateHoldsTheResetValues : Prop :=
  State.reset.cmd = 0 ∧ State.reset.status.word = 0 ∧ State.reset.inLen = 0 ∧ State.reset.outLen = 0 ∧
  State.reset.inPtr = 0 ∧ State.reset.outPtr = 0 ∧ (∀ a, State.reset.inBuf.read? a = none) ∧
  State.reset.stage = 0 ∧ State.reset.obs = [] ∧ State.reset.mf = []

/-! ## The commands: results and completion -/

/-- R170: NOP completes, and everything but `DONE` stays, the readable result included. That `W` and the
latches of the idle block stay too is the model's choice (log entry 18). -/
def Obligations.NopSetsDoneAndNothingElse : Prop :=
  ∀ (d : Bool) (s : State), exec (.nop d) s = .next { s with status := { s.status with done := true } }

/-- R102: OBFA_FWD writes `y[i] = x[L − 1 − i] ^ (L − i·L) mod 256`, and its only failure is `CAPACITY`.
That on success `W` (`TraceKept.work`) and the latches (`InputSideKept`) keep their values is the model's choice (log
entries 12 and 18): R34 and U18 leave them open in an idle block. -/
def Obligations.ObfaFwdWritesTheReversedReadXor : Prop :=
  ∀ (d : Bool) (s : State),
    (∀ x : Buf, HasInput s x → ∃ (t : State) (y : Buf), exec (.obfaFwd d) s = .next t ∧ Succeeded s t y ∧
      InputSideKept s t ∧ TraceKept s t ∧ y.length = x.length ∧
      ∀ (i : Nat) (b : Byte), i < x.length → x[x.length - 1 - i]? = some b →
        y[i]? = some (b ^^^ BitVec.ofInt 8 ((x.length : Int) - (i : Int) * (x.length : Int)))) ∧
    (s.hw.maxLen.toNat < s.inLen.toNat → ∃ t, exec (.obfaFwd d) s = .next t ∧ Failed s t .capacity 0 ∧
      InputSideKept s t ∧ TraceKept s t)

/-- R103: OBFA_INV writes `y[L − 1 − i] = x[i] ^ (L − i·L) mod 256`, and its only failure is `CAPACITY`.
That on success `W` (`TraceKept.work`) and the latches (`InputSideKept`) keep their values is the model's choice (log
entries 12 and 18): R34 and U18 leave them open in an idle block. -/
def Obligations.ObfaInvWritesTheReversedWriteXor : Prop :=
  ∀ (d : Bool) (s : State),
    (∀ x : Buf, HasInput s x → ∃ (t : State) (y : Buf), exec (.obfaInv d) s = .next t ∧ Succeeded s t y ∧
      InputSideKept s t ∧ TraceKept s t ∧ y.length = x.length ∧
      ∀ (i : Nat) (b : Byte), x[i]? = some b →
        y[x.length - 1 - i]? = some (b ^^^ BitVec.ofInt 8 ((x.length : Int) - (i : Int) * (x.length : Int)))) ∧
    (s.hw.maxLen.toNat < s.inLen.toNat → ∃ t, exec (.obfaInv d) s = .next t ∧ Failed s t .capacity 0 ∧
      InputSideKept s t ∧ TraceKept s t)

/-- R104: OBFB writes `y[i] = x[i] ^ (L − i) mod 256`, and its only failure is `CAPACITY`.
That on success `W` (`TraceKept.work`) and the latches (`InputSideKept`) keep their values is the model's choice (log
entries 12 and 18): R34 and U18 leave them open in an idle block. -/
def Obligations.ObfbWritesTheLinearXor : Prop :=
  ∀ (d : Bool) (s : State),
    (∀ x : Buf, HasInput s x → ∃ (t : State) (y : Buf), exec (.obfb d) s = .next t ∧ Succeeded s t y ∧
      InputSideKept s t ∧ TraceKept s t ∧ y.length = x.length ∧
      ∀ (i : Nat) (b : Byte), x[i]? = some b →
        y[i]? = some (b ^^^ BitVec.ofInt 8 ((x.length : Int) - (i : Int)))) ∧
    (s.hw.maxLen.toNat < s.inLen.toNat → ∃ t, exec (.obfb d) s = .next t ∧ Failed s t .capacity 0 ∧
      InputSideKept s t ∧ TraceKept s t)

/-- R123: FRAME writes the big-endian uncompressed length and then the compressed stream, or fails with
`CAPACITY` if that, or the input, does not fit.
That on success `W` (`TraceKept.work`) and the latches (`InputSideKept`) keep their values is the model's choice (log
entries 12 and 18): R34 and U18 leave them open in an idle block. -/
def Obligations.FrameWritesPrefixAndStream : Prop :=
  ∀ (d : Bool) (s : State),
    (∀ x : Buf, HasInput s x → 4 + (s.hw.codec.compress x).length ≤ s.hw.maxLen.toNat →
      ∃ t, exec (.frame d) s = .next t ∧ InputSideKept s t ∧ TraceKept s t ∧
        Succeeded s t ([BitVec.ofNat 8 (x.length / 16777216), BitVec.ofNat 8 (x.length / 65536),
          BitVec.ofNat 8 (x.length / 256), BitVec.ofNat 8 x.length] ++ s.hw.codec.compress x)) ∧
    (∀ x : Buf, HasInput s x → s.hw.maxLen.toNat < 4 + (s.hw.codec.compress x).length →
      ∃ t, exec (.frame d) s = .next t ∧ InputSideKept s t ∧ TraceKept s t ∧ Failed s t .capacity 0) ∧
    (s.hw.maxLen.toNat < s.inLen.toNat →
      ∃ t, exec (.frame d) s = .next t ∧ InputSideKept s t ∧ TraceKept s t ∧ Failed s t .capacity 0)

/-- R126: UNFRAME returns what the stream after a valid prefix decodes to, with `TRAILING` deciding on bytes
after the end of the stream.
That on success `W` (`TraceKept.work`) and the latches (`InputSideKept`) keep their values is the model's choice (log
entries 12 and 18): R34 and U18 leave them open in an idle block. -/
def Obligations.UnframeReturnsTheDecodedBytes : Prop :=
  ∀ (d : Bool) (s : State) (b0 b1 b2 b3 : Byte) (rest y : Buf) (k : Nat),
    HasInput s (b0 :: b1 :: b2 :: b3 :: rest) →
    y.length = b0.toNat * 16777216 + b1.toNat * 65536 + b2.toNat * 256 + b3.toNat →
    y.length ≤ s.hw.maxLen.toNat → s.hw.codec.inflate rest = .ok y k →
    (k = rest.length ∨ s.hw.trailing = .ignore) →
    ∃ t, exec (.unframe d) s = .next t ∧ Succeeded s t y ∧ InputSideKept s t ∧ TraceKept s t

/-- R125, R126: every other input of UNFRAME fails with `FORMAT`: a frame shorter than 4 bytes, a prefix above
`MAX_LEN`, a malformed or truncated stream, a decoded length other than the prefix, rejected trailing bytes. -/
def Obligations.UnframeFailsWithFormat : Prop :=
  ∀ (d : Bool) (s : State) (x : Buf), HasInput s x →
    (x.length < 4 ∨
      ∃ (b0 b1 b2 b3 : Byte) (rest : Buf), x = b0 :: b1 :: b2 :: b3 :: rest ∧
        (s.hw.maxLen.toNat < b0.toNat * 16777216 + b1.toNat * 65536 + b2.toNat * 256 + b3.toNat ∨
          s.hw.codec.inflate rest = .malformed ∨ s.hw.codec.inflate rest = .truncated ∨
          ∃ (y : Buf) (k : Nat), s.hw.codec.inflate rest = .ok y k ∧
            (y.length ≠ b0.toNat * 16777216 + b1.toNat * 65536 + b2.toNat * 256 + b3.toNat ∨
              (k < rest.length ∧ s.hw.trailing = .reject)))) →
    ∃ t, exec (.unframe d) s = .next t ∧ Failed s t .format 0 ∧ InputSideKept s t ∧ TraceKept s t

/-- R144: AEAD_ENC writes `SEAL(KEY, IV, [], x)`, 16 bytes longer than its input, with the 16 repetitions of the
key byte and of the IV byte (R30), or fails with `CAPACITY`.
That on success `W` (`TraceKept.work`) and the latches (`InputSideKept`) keep their values is the model's choice (log
entries 12 and 18): R34 and U18 leave them open in an idle block. -/
def Obligations.AeadEncWritesTheSealedInput : Prop :=
  ∀ (d : Bool) (s : State),
    (∀ x : Buf, HasInput s x → x.length + 16 ≤ s.hw.maxLen.toNat →
      ∃ (t : State) (c : Buf), exec (.aeadEnc d) s = .next t ∧ InputSideKept s t ∧ TraceKept s t ∧
        c = s.hw.cipher.sealBytes (Vector.replicate 16 s.hw.keyByte) (Vector.replicate 16 s.hw.ivByte) [] x ∧
        c.length = x.length + 16 ∧ Succeeded s t c) ∧
    (∀ x : Buf, HasInput s x → s.hw.maxLen.toNat < x.length + 16 →
      ∃ t, exec (.aeadEnc d) s = .next t ∧ InputSideKept s t ∧ TraceKept s t ∧ Failed s t .capacity 0) ∧
    (s.hw.maxLen.toNat < s.inLen.toNat →
      ∃ t, exec (.aeadEnc d) s = .next t ∧ InputSideKept s t ∧ TraceKept s t ∧ Failed s t .capacity 0)

/-- R145, R146: AEAD_DEC checks the length first, then the tag, and writes the plaintext only if both hold.
That on success `W` (`TraceKept.work`) and the latches (`InputSideKept`) keep their values is the model's choice (log
entries 12 and 18): R34 and U18 leave them open in an idle block. -/
def Obligations.AeadDecVerifiesBeforeAnyOutput : Prop :=
  ∀ (d : Bool) (s : State),
    (∀ x : Buf, HasInput s x → x.length < 16 →
      ∃ t, exec (.aeadDec d) s = .next t ∧ InputSideKept s t ∧ TraceKept s t ∧ Failed s t .format 0) ∧
    (∀ x : Buf, HasInput s x → 16 ≤ x.length →
      s.hw.cipher.openBytes (Vector.replicate 16 s.hw.keyByte) (Vector.replicate 16 s.hw.ivByte) [] x = none →
      ∃ t, exec (.aeadDec d) s = .next t ∧ InputSideKept s t ∧ TraceKept s t ∧ Failed s t .auth 0) ∧
    (∀ x y : Buf, HasInput s x → 16 ≤ x.length →
      s.hw.cipher.openBytes (Vector.replicate 16 s.hw.keyByte) (Vector.replicate 16 s.hw.ivByte) [] x = some y →
      ∃ t, exec (.aeadDec d) s = .next t ∧ InputSideKept s t ∧ TraceKept s t ∧ Succeeded s t y ∧
        y.length = x.length - 16) ∧
    (s.hw.maxLen.toNat < s.inLen.toNat →
      ∃ t, exec (.aeadDec d) s = .next t ∧ InputSideKept s t ∧ TraceKept s t ∧ Failed s t .capacity 0)

/-- R143, R145: under the named assumption `TAMPER`, AEAD_DEC of at least 16 bytes returns the plaintext of a
ciphertext that AEAD_ENC can produce, and fails with `AUTH` on every other.
That on success `W` (`TraceKept.work`) and the latches (`InputSideKept`) keep their values is the model's choice (log
entries 12 and 18): R34 and U18 leave them open in an idle block. -/
def Obligations.UnderTamperOnlySealedInputsOpen : Prop :=
  ∀ (d : Bool) (s : State) (c : Buf), Tamper s.hw → HasInput s c → 16 ≤ c.length →
    ∃ t, exec (.aeadDec d) s = .next t ∧ InputSideKept s t ∧ TraceKept s t ∧
      ((∃ x, s.hw.cipher.sealBytes s.hw.key s.hw.iv [] x = c ∧ Succeeded s t x) ∨
        ((∀ x, s.hw.cipher.sealBytes s.hw.key s.hw.iv [] x ≠ c) ∧ Failed s t .auth 0))

/-- R172, R176, R177 under `A_OUTER`: ENCODE's result and its four taps with their lengths.
That `W` holds the last stage's output (`t.work = y4`, log entry 12) and that the latches stay (`InputSideKept`, log
entry 18) is the model's choice and no rule's: R34 and U18 leave them open in an idle block. -/
def Obligations.EncodeWithFormulaAOutsideCompletes : Prop :=
  ∀ (d : Bool) (s : State) (x : Buf), HasInput s x → s.hw.layering = .aOuter →
    20 + (s.hw.codec.compress x).length ≤ s.hw.maxLen.toNat →
    ∃ (t : State) (y1 y2 y3 y4 : Buf), exec (.encode d) s = .next t ∧ InputSideKept s t ∧ t.mf = s.mf ∧
      y1 = be32 x.length ++ s.hw.codec.compress x ∧ y2 = obfb y1 ∧
      y3 = s.hw.cipher.sealBytes s.hw.key s.hw.iv [] y2 ∧ y4 = obfaInv y3 ∧
      Succeeded s t y4 ∧ t.work = y4 ∧
      t.obs = s.obs ++ taps .encode d [(1, y1), (2, y2), (3, y3), (4, y4)] ∧
      y1.length = 4 + (s.hw.codec.compress x).length ∧ y2.length = y1.length ∧
      y3.length = 20 + (s.hw.codec.compress x).length ∧ y4.length = y3.length

/-- R172, R176, R177 under `A_INNER`: ENCODE's result and its four taps with their lengths.
That `W` holds the last stage's output (`t.work = y4`, log entry 12) and that the latches stay (`InputSideKept`, log
entry 18) is the model's choice and no rule's: R34 and U18 leave them open in an idle block. -/
def Obligations.EncodeWithFormulaAInsideCompletes : Prop :=
  ∀ (d : Bool) (s : State) (x : Buf), HasInput s x → s.hw.layering = .aInner →
    20 + (s.hw.codec.compress x).length ≤ s.hw.maxLen.toNat →
    ∃ (t : State) (y1 y2 y3 y4 : Buf), exec (.encode d) s = .next t ∧ InputSideKept s t ∧ t.mf = s.mf ∧
      y1 = be32 x.length ++ s.hw.codec.compress x ∧ y2 = obfaInv y1 ∧
      y3 = s.hw.cipher.sealBytes s.hw.key s.hw.iv [] y2 ∧ y4 = obfb y3 ∧
      Succeeded s t y4 ∧ t.work = y4 ∧
      t.obs = s.obs ++ taps .encode d [(1, y1), (2, y2), (3, y3), (4, y4)] ∧
      y1.length = 4 + (s.hw.codec.compress x).length ∧ y2.length = y1.length ∧
      y3.length = 20 + (s.hw.codec.compress x).length ∧ y4.length = y3.length

/-- R172, R174, R176: ENCODE of an input that does not fit ends with `CAPACITY`, at stage 1 with no tap if its frame is
too long, and at stage 3 with the first two taps if only its ciphertext is, whatever the layering; no output is
written. (An input that fits succeeds: the two statements before this one.)
That `W` holds stage 2's output (`t.work = y2`) is the model's choice (log entry 12) and no rule's: R34 and U18 leave
`W` open in an idle block. -/
def Obligations.EncodeThatDoesNotFitFailsWithCapacity : Prop :=
  ∀ (d : Bool) (s : State) (x : Buf), HasInput s x →
    (s.hw.maxLen.toNat < 4 + (s.hw.codec.compress x).length →
      ∃ t, exec (.encode d) s = .next t ∧ InputSideKept s t ∧ TraceKept s t ∧ Failed s t .capacity 1) ∧
    (4 + (s.hw.codec.compress x).length ≤ s.hw.maxLen.toNat →
      s.hw.maxLen.toNat < 20 + (s.hw.codec.compress x).length →
      ∃ (t : State) (y1 y2 : Buf), exec (.encode d) s = .next t ∧ InputSideKept s t ∧ t.mf = s.mf ∧
        Failed s t .capacity 3 ∧
        y1 = be32 x.length ++ s.hw.codec.compress x ∧
        y2 = encodeStage2 s.hw.layering y1 ∧
        t.work = y2 ∧ t.obs = s.obs ++ taps .encode d [(1, y1), (2, y2)])

/-- R173, R176, R177: DECODE's result when every stage succeeds, under either layering, with its four taps.
That `W` holds the last stage's output (`t.work = y4`, log entry 12) and that the latches stay (`InputSideKept`, log
entry 18) is the model's choice and no rule's: R34 and U18 leave them open in an idle block. -/
def Obligations.DecodeOfAValidArtifactCompletes : Prop :=
  ∀ (d : Bool) (s : State) (x y1 y2 y3 y4 : Buf) (k : Nat), HasInput s x → 16 ≤ x.length →
    y1 = decodeStage1 s.hw.layering x →
    s.hw.cipher.openBytes s.hw.key s.hw.iv [] y1 = some y2 →
    y3 = decodeStage3 s.hw.layering y2 →
    4 ≤ y3.length → s.hw.codec.inflate (y3.drop 4) = .ok y4 k →
    y4.length = unbe32 (y3.take 4) → y4.length ≤ s.hw.maxLen.toNat →
    (k = y3.length - 4 ∨ s.hw.trailing = .ignore) →
    ∃ t, exec (.decode d) s = .next t ∧ InputSideKept s t ∧ t.mf = s.mf ∧ Succeeded s t y4 ∧ t.work = y4 ∧
      t.obs = s.obs ++ taps .decode d [(1, y1), (2, y2), (3, y3), (4, y4)] ∧
      y1.length = x.length ∧ y2.length = x.length - 16 ∧ y3.length = x.length - 16

/-- R181: `ERR` and `FAIL_STAGE` of DECODE for every input are those of the rule's table, spelled out in
`Safety.decodeOutcome`; with `IN_LEN` above `MAX_LEN` they are `CAPACITY` and 0. -/
def Obligations.DecodeOutcomesAreTheTableOfTheRule : Prop :=
  ∀ (d : Bool) (s : State),
    (∀ x : Buf, HasInput s x → ∃ t, exec (.decode d) s = .next t ∧ t.status.busy = false ∧
      t.status.done = true ∧ (t.status.err, t.status.failStage) = decodeOutcome s.hw x) ∧
    (s.hw.maxLen.toNat < s.inLen.toNat →
      ∃ t, exec (.decode d) s = .next t ∧ InputSideKept s t ∧ TraceKept s t ∧ Failed s t .capacity 0)

/-- R173, R174, R176, R181: the taps of a DECODE that fails, under either layering. A failure at stage 2 leaves the
tap of stage 1, and a failure at stage 4 the taps of stages 1 to 3; with `DIAG` = 0 there is none (`Safety.taps`).
The error is that of the rule's table, and no output is written. What `W` then holds is not stated. -/
def Obligations.DecodeThatFailsKeepsTheTapsOfTheStagesBefore : Prop :=
  ∀ (d : Bool) (s : State) (x y1 : Buf), HasInput s x → y1 = decodeStage1 s.hw.layering x →
    (x.length < 16 →
      ∃ t, exec (.decode d) s = .next t ∧ InputSideKept s t ∧ t.mf = s.mf ∧ Failed s t .format 2 ∧
        t.obs = s.obs ++ taps .decode d [(1, y1)]) ∧
    (16 ≤ x.length → s.hw.cipher.openBytes s.hw.key s.hw.iv [] y1 = none →
      ∃ t, exec (.decode d) s = .next t ∧ InputSideKept s t ∧ t.mf = s.mf ∧ Failed s t .auth 2 ∧
        t.obs = s.obs ++ taps .decode d [(1, y1)]) ∧
    (∀ y2 y3 : Buf, 16 ≤ x.length → s.hw.cipher.openBytes s.hw.key s.hw.iv [] y1 = some y2 →
      y3 = decodeStage3 s.hw.layering y2 → frameOutcome s.hw y3 = (.format, 4) →
      ∃ t, exec (.decode d) s = .next t ∧ InputSideKept s t ∧ t.mf = s.mf ∧ Failed s t .format 4 ∧
        t.obs = s.obs ++ taps .decode d [(1, y1), (2, y2), (3, y3)])

/-- R162, R202: with `IN_LEN` above `MAX_LEN` every command but NOP ends with `CAPACITY` at stage 0, whatever `IN`
holds. -/
def Obligations.OversizedInputLengthIsCapacity : Prop :=
  ∀ (i : Instr) (s : State), executes i = true → s.hw.maxLen.toNat < s.inLen.toNat →
    ∃ t, exec i s = .next t ∧ Failed s t .capacity 0 ∧ InputSideKept s t ∧ TraceKept s t

/-- R205, R162, R36: a command that would read an unwritten cell of `IN` records the model fault and changes
nothing else, so `BUSY` stays 1, and a second turn of the block leaves the state as it is. -/
def Obligations.UnwrittenInputIsAModelFault : Prop :=
  ∀ (i : Instr) (s : State), executes i = true → s.inLen.toNat ≤ s.hw.maxLen.toNat →
    (∃ a, a < s.inLen.toNat ∧ s.inBuf.read? a = none) →
    ∃ mf : List ModelFault, exec i s = .next { s with mf := mf } ∧ ModelFault.unwrittenRead ∈ mf ∧
      (∀ r, r ∈ s.mf → r ∈ mf) ∧ exec i { s with mf := mf } = .next { s with mf := mf }

/-- R200: when a command ends with an error, `OUT` is not readable and unchanged, `BUSY` = 0, `DONE` = 1, and the
input side stays. -/
def Obligations.ErrorCompletionExposesNothing : Prop :=
  ∀ (i : Instr) (s t : State), executes i = true → s.status.err = .none → exec i s = .next t →
    t.status.err ≠ .none →
    Failed s t t.status.err t.status.failStage ∧ InputSideKept s t ∧ t.mf = s.mf ∧ s.obs <+: t.obs

/-- R22, R27, R29, R60, R244: no command writes `IN`, `IN_LEN`, `IN_PTR` or `CMD`. That a successful one
leaves the latches as they are (`InputSideKept`) is the model's choice (log entry 18): R34 and U18 leave them open in
an idle block. -/
def Obligations.NoCommandChangesItsInput : Prop :=
  ∀ (i : Instr) (s t : State), exec i s = .next t → InputSideKept s t

/-- R73: `DIAG` is legal on every command and changes no result: the same command without it ends in the same
state but for `OBS`, and any command other than ENCODE and DECODE in exactly the same state. -/
def Obligations.DiagChangesNothingButTheTrace : Prop :=
  (∀ i : Instr, legalWord (encode i) = true) ∧
  ∀ (i j : Instr) (s : State), opcodeOf i = opcodeOf j →
    ∃ t u, exec i s = .next t ∧ exec j s = .next u ∧ t = { u with obs := t.obs } ∧
      (opcodeOf i ≠ 0x8 → opcodeOf i ≠ 0x9 → t = u)

/-- R179: the result and the taps depend on the input bytes, the command and the parameters alone. -/
def Obligations.ResultsAreAFunctionOfTheInput : Prop :=
  ∀ (i : Instr) (x : Buf) (s u : State), executes i = true → HasInput s x → HasInput u x → s.hw = u.hw →
    ∃ s' u' new, exec i s = .next s' ∧ exec i u = .next u' ∧
      s'.status.err = u'.status.err ∧ s'.status.failStage = u'.status.failStage ∧ s'.outLen = u'.outLen ∧
      (∀ a, a < s'.outLen.toNat → s'.outBuf.read? a = u'.outBuf.read? a) ∧
      s'.obs = s.obs ++ new ∧ u'.obs = u.obs ++ new

/-! ## The laws of the core functions -/

/-- R105: the two directions of formula A undo each other at every length. -/
def Obligations.FormulaADirectionsAreInverses : Prop :=
  ∀ x : Buf, obfaInv (obfaFwd x) = x ∧ obfaFwd (obfaInv x) = x

/-- R106: formula B undoes itself, and is idempotent on no buffer but the empty one. -/
def Obligations.FormulaBIsAnInvolution : Prop :=
  (∀ x : Buf, obfb (obfb x) = x) ∧ (∀ x : Buf, x ≠ [] → obfb (obfb x) ≠ obfb x)

/-- R107: OBFA_FWD applied twice XORs each byte with the keystream at both ends, so it is no involution. -/
def Obligations.ForwardFormulaATwiceIsNotTheIdentity : Prop :=
  (∀ (x : Buf) (i : Nat) (b : Byte), x[i]? = some b →
    (obfaFwd (obfaFwd x))[i]? = some (b ^^^ keyA (x.length - 1 - i) x.length ^^^ keyA i x.length)) ∧
  obfaFwd (obfaFwd [0x00, 0x00]) = [0x02, 0x02]

/-- R127, R124: UNFRAME undoes FRAME on every input that fits, with either value of `TRAILING`; the frame holds
its input's length and a stream that decodes to it whole. -/
def Obligations.UnframeUndoesFrame : Prop :=
  ∀ (p : Params) (x : Buf), x.length ≤ p.maxLen.toNat → 4 + (p.codec.compress x).length ≤ p.maxLen.toNat →
    ∃ f, frame p x = .ok f ∧ unbe32 (f.take 4) = x.length ∧
      p.codec.inflate (f.drop 4) = .ok x (f.length - 4) ∧ unframe p f = .ok x

/-- R128 (a): a frame whose prefix is changed to any other value always fails with `FORMAT`. -/
def Obligations.CorruptedPrefixAlwaysFails : Prop :=
  ∀ (p : Params) (x : Buf) (n : Nat), x.length ≤ p.maxLen.toNat → n < 4294967296 → n ≠ x.length →
    unframe p (be32 n ++ p.codec.compress x) = .err .format 0

/-- R145, R142: AEAD_DEC undoes AEAD_ENC on every input that fits. -/
def Obligations.AeadDecUndoesAeadEnc : Prop :=
  ∀ (p : Params) (x : Buf), x.length + 16 ≤ p.maxLen.toNat →
    ∃ c, aeadEnc p x = .ok c ∧ c.length = x.length + 16 ∧ aeadDec p c = .ok x

/-- R178: decode undoes encode under either layering, for every input that fits, the empty one included; across
layerings it does not in general, as some block and some input show. -/
def Obligations.DecodeUndoesEncode : Prop :=
  (∀ (p : Params) (x : Buf), x.length ≤ p.maxLen.toNat → 20 + (p.codec.compress x).length ≤ p.maxLen.toNat →
    ∃ y, encodeBytes p x = .ok y ∧ decodeBytes p y = .ok x) ∧
  ∃ (p : Params) (x y : Buf), p.wf = true ∧ p.layering = .aOuter ∧ encodeBytes p x = .ok y ∧
    decodeBytes { p with layering := .aInner } y ≠ .ok x

/-- R180: the empty input encodes to at least 21 bytes, and decodes back to the empty sequence. -/
def Obligations.EmptyInputEncodesToANonEmptyArtifact : Prop :=
  ∀ p : Params, 20 + (p.codec.compress []).length ≤ p.maxLen.toNat →
    ∃ y, encodeBytes p [] = .ok y ∧ y.length = 20 + (p.codec.compress []).length ∧ 21 ≤ y.length ∧
      decodeBytes p y = .ok []

/-- R82: the layout of the PKT bytes in terms of the ciphertext `z` of the obfuscated frame, per layering. -/
def Obligations.PktBytesHaveTheLayoutOfTheLayering : Prop :=
  ∀ (p : Params) (x y : Buf), encodeBytes p x = .ok y →
    ∃ z : Buf, y.length = z.length ∧ z.length = (p.codec.compress x).length + 20 ∧ 21 ≤ y.length ∧
      (p.layering = .aOuter →
        z = p.cipher.sealBytes p.key p.iv [] (obfb (be32 x.length ++ p.codec.compress x)) ∧
        ∀ (j : Nat) (b : Byte), z[z.length - 1 - j]? = some b → j < z.length →
          y[j]? = some (b ^^^ keyA (z.length - 1 - j) z.length)) ∧
      (p.layering = .aInner →
        z = p.cipher.sealBytes p.key p.iv [] (obfaInv (be32 x.length ++ p.codec.compress x)) ∧
        ∀ (j : Nat) (b : Byte), z[j]? = some b → y[j]? = some (b ^^^ keyB j z.length))

/-! ## The whole machine -/

/-- R178 at the register level, with R163 and R174: a host that runs ENCODE, moves the output to the input of a
block with the same parameters, and runs DECODE, reads its input back. -/
def Obligations.EncodeMoveDecodeReturnsTheInput : Prop :=
  ∀ (d d' : Bool) (s t u : State) (x y : Buf), HasInput s x →
    exec (.encode d) s = .next t → Succeeded s t y → u.hw = s.hw → HasInput u y →
    ∃ v, exec (.decode d') u = .next v ∧ Succeeded u v x

/-- R207, R209, R211: no access and no command traps, faults or halts the block: every step answers a next state.
That a step of a silent, idle or stuck block leaves the state as it is, and that a model fault is state and no
stop, is the model's choice (log entries 8 and 11). -/
def Obligations.EveryStepAnswersANextState : Prop :=
  ∀ s : State, ∃ t, step s = .next t

/-- The invariant that every step keeps: capacities and canonical buffers (R22, R23, R28, R34), `BUSY` against
`DONE` (R26), the latched command (R160), readable results (R31, R200), taps (R176) and the sets. -/
def Obligations.EveryStepKeepsTheInvariant : Prop :=
  ∀ s t : State, Invariant s → step s = .next t → Invariant t

/-- The power-up state has the invariant, whatever the open parameters are. -/
def Obligations.PowerUpStateHasTheInvariant : Prop := Invariant State.reset

/-- R36: no step, a reset included, removes a member of `MF`. -/
def Obligations.ModelFaultsAreNeverCleared : Prop :=
  ∀ s t : State, step s = .next t → ∀ r, r ∈ s.mf → r ∈ t.mf

/-- R33, R230: a step that is no reset only appends to `OBS`, and returns no written cell of `IN` to `⊥`. -/
def Obligations.OnlyResetForgetsTheTraceAndTheInput : Prop :=
  ∀ s t : State, (∀ rest, s.inbox ≠ .reset :: rest) → step s = .next t →
    s.obs <+: t.obs ∧ ∀ a, s.inBuf.read? a ≠ none → t.inBuf.read? a ≠ none

/-- R23: a cell of `OUT` changes only in a reset or in the successful completion of a command, and then only
within `OUT[0..OUT_LEN)`. -/
def Obligations.OutputChangesOnlyOnSuccess : Prop :=
  ∀ (s t : State) (a : Nat), (∀ rest, s.inbox ≠ .reset :: rest) → step s = .next t →
    t.outBuf.read? a ≠ s.outBuf.read? a →
    s.status.busy = true ∧ t.status.busy = false ∧ t.status.done = true ∧ t.status.err = .none ∧
      a < t.outLen.toNat

/-- R40, R241: in a state with the invariant, every read while a command executes returns 0 for `OUT_LEN` and
`OUT_DATA` and shows `BUSY` = 1, `DONE` = 0 and `ERR` = 0, and moves no pointer. -/
def Obligations.ReadsWhileBusyShowNoResult : Prop :=
  ∀ (s : State) (rest : List Event), Invariant s → s.status.busy = true →
    (s.inbox = .read 32 0x0C :: rest → step s = .next { s with inbox := rest, replies := s.replies ++ [0] }) ∧
    (s.inbox = .read 32 0x1C :: rest → step s = .next { s with inbox := rest, replies := s.replies ++ [0] }) ∧
    (s.inbox = .read 32 0x04 :: rest →
      step s = .next { s with
        inbox := rest, replies := s.replies ++ [BitVec.ofNat 32 (1 + 256 * s.status.lastOp.toNat)] })

/-- R58: the result of a command does not depend on the schedule. Whatever host accesses come between acceptance
and the block's turn, the state after the turn is the one that the turn gives at once, but for the values those
accesses read. -/
def Obligations.TheScheduleDoesNotChangeTheResult : Prop :=
  ∀ (s t : State) (es rest : List Event), s.status.busy = true → (∀ e ∈ es, hostAccess e = true) →
    step { s with inbox := .blockTurn :: rest } = .next t →
    Host.Core.run Sys2Proof.core (es.length + 1) { s with inbox := es ++ .blockTurn :: rest } =
      .next { t with replies := s.replies ++ readValues s es }

/-- R34, R39, R23 and U18: `W`, the latches of an idle block and the cells of `OUT` beyond `OUT_LEN` are
unobservable: states that differ in them only take the same steps, and their hosts read the same values. -/
def Obligations.HiddenStateIsUnobservable : Prop :=
  ∀ (n : Nat) (s t s' : State), LooksAlike s t →
    Host.Core.run Sys2Proof.core n s = .next s' →
    ∃ t' : State, Host.Core.run Sys2Proof.core n t = .next t' ∧ LooksAlike s' t'

/-- R165, R164: once the host writes a command word and is then silent, the command ends in the next two steps,
if its input is written or its `IN_LEN` is above `MAX_LEN`. That a silent host gives the block its turn at once is
the model's form of the rule's fairness (log entry 4). -/
def Obligations.AnAcceptedCommandEndsWhenTheHostIsSilent : Prop :=
  ∀ (s : State) (i : Instr), s.status.busy = false → s.inbox = [.write 32 0x00 (encode i)] →
    (s.hw.maxLen.toNat < s.inLen.toNat ∨ ∃ x, HasInput s x) →
    ∃ t : State, Host.Core.run Sys2Proof.core 2 s = .next t ∧ t.status.busy = false ∧ t.status.done = true ∧
      t.cmd = encode i

/-- R29, R85: `LOAD` of at most `MAX_LEN` bytes on an idle block makes them the next command's input, and leaves
the result of the last command readable. -/
def Obligations.LoadMakesTheBytesTheInput : Prop :=
  ∀ (s : State) (bs : Buf), s.status.busy = false → bs.length ≤ s.hw.maxLen.toNat →
    s.inbox = .write 32 0x10 0 :: bs.map (fun b => .write 32 0x14 (b.setWidth 32)) ++
      [.write 32 0x08 (BitVec.ofNat 32 bs.length)] →
    ∃ t : State, Host.Core.run Sys2Proof.core (bs.length + 2) s = .next t ∧ HasInput t bs ∧
      t.inPtr.toNat = bs.length ∧ t.inbox = [] ∧ t.status = s.status ∧ t.hw = s.hw ∧
      t.outBuf = s.outBuf ∧ t.outLen = s.outLen ∧ t.outPtr = s.outPtr

/-- R31, R85: `UNLOAD` of an idle block returns the length and then every byte of the result, in order. -/
def Obligations.UnloadReturnsTheResult : Prop :=
  ∀ (s : State) (y : Buf), s.status.busy = false → s.outLen.toNat = y.length →
    (∀ i, i < y.length → s.outBuf.read? i = y[i]?) →
    s.inbox = .write 32 0x18 0 :: .read 32 0x0C :: List.replicate y.length (.read 32 0x1C) →
    Host.Core.run Sys2Proof.core (y.length + 2) s =
      .next { s with
        inbox := [], outPtr := s.outLen,
        replies := s.replies ++ s.outLen :: y.map (fun b => b.setWidth 32) }

/-- R24, R50: the offsets of the register map, which a host program's accesses and the block's own reading of an
offset agree on, and the 256-byte window at `REG_BASE`. -/
def Obligations.TheRegisterMapAndTheWindow : Prop :=
  (offsetOf .cmd = 0x00 ∧ offsetOf .status = 0x04 ∧ offsetOf .inLen = 0x08 ∧ offsetOf .outLen = 0x0C ∧
    offsetOf .inPtr = 0x10 ∧ offsetOf .inData = 0x14 ∧ offsetOf .outPtr = 0x18 ∧ offsetOf .outData = 0x1C ∧
    offsetOf .info = 0x20 ∧ offsetOf .capacity = 0x24 ∧ offsetOf .config = 0x28) ∧
  (∀ offset : BitVec 8, 0x2C ≤ offset.toNat → registerAt offset = .reserved) ∧
  (∀ r : Register, registerAt (offsetOf r) = r ∧ (offsetOf r).toNat % 4 = 0) ∧
  (∀ (p : Params) (offset : BitVec 8), windowOffset p (p.regBase + offset.toNat) = some offset) ∧
  (∀ (p : Params) (a : Nat), (a < p.regBase ∨ p.regBase + 256 ≤ a) → windowOffset p a = none)
end

