-- ==== Sys2Proof/Laws/Encoding.lean ====
section
/-! SUPPORT. The fields of a command word as numbers, and what the decoder answers (spec/30_encoding.md R70 to
R72). -/

namespace Sys2Proof

theorem opField_toNat (v : Word) : (opField v).toNat = v.toNat % 16 := by simp [opField]

theorem rsvField_toNat (v : Word) : (rsvField v).toNat = v.toNat / 32 := by
  have := v.isLt
  simp [rsvField, Nat.shiftRight_eq_div_pow]
  omega

theorem opField_eq_setWidth (v : Word) : opField v = v.setWidth 4 := by
  apply BitVec.eq_of_toNat_eq
  simp [opField]

theorem rsvField_eq_zero (v : Word) : rsvField v = 0 ↔ v.toNat / 32 = 0 := by
  rw [← rsvField_toNat]
  constructor
  · intro h
    rw [h]
    rfl
  · intro h
    apply BitVec.eq_of_toNat_eq
    rw [h]
    rfl

@[simp] theorem commandOf_opcodeOf (i : Instr) : commandOf (opcodeOf i) (diagOf i) = some i := by
  cases i <;> rfl

/-- Only the ten `OP` values 0x0 to 0x9 name a command, R71. -/
theorem commandOf_eq_none (op : BitVec 4) (d : Bool) : commandOf op d = none ↔ 10 ≤ op.toNat := by
  revert d
  revert op
  decide

theorem commandOf_eq_some {op : BitVec 4} {d : Bool} {i : Instr} (h : commandOf op d = some i) :
    opcodeOf i = op ∧ diagOf i = d := by
  revert h
  revert i d op
  intro op d i
  have h16 := op.isLt
  obtain ⟨n, hn, rfl⟩ : ∃ n, n < 16 ∧ op = BitVec.ofNat 4 n := ⟨op.toNat, h16, by simp⟩
  interval_cases n <;> intro h <;> simp [commandOf] at h <;> subst h <;> exact ⟨rfl, rfl⟩

end Sys2Proof
end

