-- ==== Sys2Proof/Laws/Memory.lean ====
section
/-! SUPPORT. The buffer cells: reading after writing, and the canonical form. -/

namespace Sys2Proof.Machine

@[simp] theorem Memory.read?_nil (a : Nat) : Memory.read? [] a = none := rfl

/-- A write gives the cell its value. -/
@[simp] theorem Memory.read?_write_self (m : Memory) (a : Nat) (v : Byte) : (m.write a v).read? a = some v := by
  induction m with
  | nil => simp [Memory.write, Memory.read?]
  | cons p m ih =>
    obtain ⟨c, b⟩ := p
    simp only [Memory.write]
    split
    · simp [Memory.read?]
    · split
      · simp [Memory.read?]
      · simp_all [Memory.read?]

/-- A write leaves every other cell alone. -/
theorem Memory.read?_write_ne (m : Memory) {a a' : Nat} (v : Byte) (h : a' ≠ a) :
    (m.write a v).read? a' = m.read? a' := by
  induction m with
  | nil => simp [Memory.write, Memory.read?, Ne.symm h]
  | cons p m ih =>
    obtain ⟨c, b⟩ := p
    simp only [Memory.write]
    split
    · simp [Memory.read?, Ne.symm h]
    · split
      · simp_all [Memory.read?, Ne.symm h]
      · simp_all [Memory.read?]

theorem Memory.mem_write {m : Memory} {a : Nat} {v : Byte} {c : Host.Cell} (h : c ∈ m.write a v) :
    c = (a, v) ∨ c ∈ m := by
  induction m with
  | nil => simpa [Memory.write] using h
  | cons p m ih =>
    simp only [Memory.write] at h
    split at h
    · simpa using h
    · split at h
      · simp only [List.mem_cons] at h ⊢
        tauto
      · simp only [List.mem_cons] at h ⊢
        rcases h with h | h
        · exact .inr (.inl h)
        · rcases ih h with h | h
          · exact .inl h
          · exact .inr (.inr h)

/-- A write keeps the canonical form. -/
theorem Memory.wf_write {m : Memory} (h : m.wf) (a : Nat) (v : Byte) : (m.write a v).wf := by
  induction m with
  | nil => simp [Memory.write, Memory.wf]
  | cons p m ih =>
    obtain ⟨c, b⟩ := p
    simp only [Memory.wf, List.map_cons, List.pairwise_cons] at h
    simp only [Memory.write]
    split
    · rename_i hlt
      simp only [Memory.wf, List.map_cons, List.pairwise_cons, List.mem_cons]
      refine ⟨?_, h⟩
      rintro x (rfl | hx)
      · exact hlt
      · exact lt_trans hlt (h.1 x hx)
    · split
      · rename_i heq
        subst heq
        simpa only [Memory.wf, List.map_cons, List.pairwise_cons] using h
      · rename_i h1 h2
        simp only [Memory.wf, List.map_cons, List.pairwise_cons]
        refine ⟨?_, ih h.2⟩
        intro x hx
        obtain ⟨d, hd, rfl⟩ := List.mem_map.1 hx
        rcases Memory.mem_write hd with rfl | hd
        · simp only
          omega
        · exact h.1 _ (List.mem_map.2 ⟨d, hd, rfl⟩)

/-- Writing a buffer keeps the canonical form. -/
theorem Memory.wf_writeBytes {m : Memory} (h : m.wf) (a : Nat) (y : Buf) : (m.writeBytes a y).wf := by
  induction y generalizing m a with
  | nil => exact h
  | cons b y ih => exact ih (Memory.wf_write h a b) (a + 1)

theorem Memory.mem_writeBytes {m : Memory} {a : Nat} {y : Buf} {c : Host.Cell} (h : c ∈ m.writeBytes a y) :
    (a ≤ c.1 ∧ c.1 < a + y.length) ∨ c ∈ m := by
  induction y generalizing m a with
  | nil => exact .inr h
  | cons b y ih =>
    rcases ih h with h | h
    · left
      simp only [List.length_cons]
      omega
    · rcases Memory.mem_write h with rfl | h
      · left
        simp
      · exact .inr h

/-- What a cell reads after a buffer is written at `a`. -/
theorem Memory.read?_writeBytes (m : Memory) (a : Nat) (y : Buf) (i : Nat) :
    (m.writeBytes a y).read? i = if a ≤ i ∧ i < a + y.length then y[i - a]? else m.read? i := by
  induction y generalizing m a with
  | nil =>
    have : ¬(a ≤ i ∧ i < a + ([] : Buf).length) := by simp
    rw [if_neg this]
    rfl
  | cons b y ih =>
    simp only [Memory.writeBytes, ih, List.length_cons]
    by_cases h1 : i = a
    · subst h1
      simp
    · rw [Memory.read?_write_ne m b h1]
      by_cases h2 : a + 1 ≤ i ∧ i < a + 1 + y.length
      · rw [if_pos h2, if_pos (by omega)]
        obtain ⟨k, rfl⟩ : ∃ k, i = a + 1 + k := ⟨i - (a + 1), by omega⟩
        rw [show a + 1 + k - (a + 1) = k by omega, show a + 1 + k - a = k + 1 by omega]
        simp
      · rw [if_neg h2, if_neg (by omega)]

/-- Writing from index 0, as every completion does: inside the buffer, its bytes; beyond it, what was there. -/
theorem Memory.read?_writeBytes_zero (m : Memory) (y : Buf) (i : Nat) :
    (m.writeBytes 0 y).read? i = if i < y.length then y[i]? else m.read? i := by
  simpa using Memory.read?_writeBytes m 0 y i

/-- Reading `n` cells gives exactly the buffer of their bytes, if all are written. -/
theorem Memory.readBytes_eq_some {m : Memory} {a n : Nat} {x : Buf} :
    m.readBytes a n = some x ↔ x.length = n ∧ ∀ i, i < n → m.read? (a + i) = x[i]? := by
  induction n generalizing a x with
  | zero =>
    simp only [Memory.readBytes, Option.some.injEq, Nat.not_lt_zero, false_implies, implies_true, and_true,
      List.length_eq_zero_iff]
    exact eq_comm
  | succ n ih =>
    simp only [Memory.readBytes]
    constructor
    · intro h
      split at h
      · rename_i b bs hb hbs
        cases h
        obtain ⟨hl, hr⟩ := ih.1 hbs
        refine ⟨by simp [hl], ?_⟩
        rintro (_ | i) hi
        · simpa using hb
        · rw [show a + (i + 1) = a + 1 + i by omega, hr i (by omega)]
          simp
      · cases h
    · rintro ⟨hl, hr⟩
      obtain ⟨b, bs, rfl⟩ : ∃ b bs, x = b :: bs := by
        cases x with
        | nil => simp at hl
        | cons b bs => exact ⟨b, bs, rfl⟩
      have h0 : m.read? a = some b := by simpa using hr 0 (by omega)
      have hbs : m.readBytes (a + 1) n = some bs := by
        refine ih.2 ⟨by simpa using hl, fun i hi => ?_⟩
        rw [show a + 1 + i = a + (i + 1) by omega, hr (i + 1) (by omega)]
        simp
      rw [h0, hbs]

/-- Reading `n` cells fails exactly when one of them is unwritten. -/
theorem Memory.readBytes_eq_none {m : Memory} {a n : Nat} :
    m.readBytes a n = none ↔ ∃ i, i < n ∧ m.read? (a + i) = none := by
  induction n generalizing a with
  | zero => simp [Memory.readBytes]
  | succ n ih =>
    have split_index : (∃ i, i < n + 1 ∧ m.read? (a + i) = none) ↔
        m.read? a = none ∨ ∃ i, i < n ∧ m.read? (a + 1 + i) = none := by
      constructor
      · rintro ⟨_ | i, hi, h⟩
        · exact .inl h
        · exact .inr ⟨i, by omega, by rwa [show a + 1 + i = a + (i + 1) by omega]⟩
      · rintro (h | ⟨i, hi, h⟩)
        · exact ⟨0, by omega, h⟩
        · exact ⟨i + 1, by omega, by rwa [show a + (i + 1) = a + 1 + i by omega]⟩
    rw [split_index, ← ih]
    simp only [Memory.readBytes]
    cases m.read? a <;> cases Memory.readBytes m (a + 1) n <;> simp

/-- A written cell stays written, whatever is written later. -/
theorem Memory.read?_write_isSome (m : Memory) (a a' : Nat) (v : Byte) (h : m.read? a' ≠ none) :
    (m.write a v).read? a' ≠ none := by
  by_cases hc : a' = a
  · subst hc
    simp
  · rwa [Memory.read?_write_ne m v hc]

end Sys2Proof.Machine
end

