-- ==== Sys2Proof/Laws/Obfuscator.lean ====
section
/-! SUPPORT. The obfuscators lane by lane: length, and which input byte and keystream byte each output lane has
(spec/40_obfuscator.md R109). -/

namespace Sys2Proof.Machine

@[simp] theorem obfaFwd_length (x : Buf) : (obfaFwd x).length = x.length := by simp [obfaFwd]

@[simp] theorem obfaInv_length (x : Buf) : (obfaInv x).length = x.length := by simp [obfaInv]

@[simp] theorem obfb_length (x : Buf) : (obfb x).length = x.length := by simp [obfb]

theorem obfaFwd_lane (x : Buf) (i : Nat) (h : i < x.length) :
    (obfaFwd x)[i]'(by simpa using h) = x[x.length - 1 - i] ^^^ keyA i x.length := by
  simp [obfaFwd]

theorem obfaInv_lane (x : Buf) (j : Nat) (h : j < x.length) :
    (obfaInv x)[j]'(by simpa using h) = x[x.length - 1 - j] ^^^ keyA (x.length - 1 - j) x.length := by
  simp [obfaInv]

theorem obfb_lane (x : Buf) (i : Nat) (h : i < x.length) :
    (obfb x)[i]'(by simpa using h) = x[i] ^^^ keyB i x.length := by
  simp [obfb]

/-- R101: the last keystream byte of formula B is 1. -/
theorem keyB_last (len : Nat) (h : 1 ≤ len) : keyB (len - 1) len = 1 := by
  have : (len : Int) - ((len - 1 : Nat) : Int) = 1 := by omega
  simp [keyB, this]

end Sys2Proof.Machine
end

