-- ==== Sys2Proof/Laws/Stages.lean ====
section
/-! SUPPORT. The stage functions: what each answers, and that no answer is longer than `MAX_LEN`
(spec/43_sequencer.md R163: "Every `Ok(y)` reaching completion has `|y|` ≤ `MAX_LEN`"). -/

namespace Sys2Proof.Machine

@[simp] theorem be32_length (n : Nat) : (be32 n).length = 4 := rfl

/-- R14: reading the prefix back gives the number, for every length that fits in 32 bits. -/
theorem unbe32_be32 (n : Nat) (h : n < 2 ^ 32) : unbe32 (be32 n) = n := by
  simp only [unbe32, be32, List.foldl_cons, List.foldl_nil, BitVec.toNat_ofNat]
  omega

/-- FRAME answers the frame or `CAPACITY`, R123. -/
theorem frame_cases (p : Params) (x : Buf) :
    (p.maxLen.toNat < 4 + (p.codec.compress x).length ∧ frame p x = .err .capacity 0) ∨
    (4 + (p.codec.compress x).length ≤ p.maxLen.toNat ∧ frame p x = .ok (be32 x.length ++ p.codec.compress x)) := by
  by_cases h : p.maxLen.toNat < 4 + (p.codec.compress x).length
  · exact .inl ⟨h, if_pos h⟩
  · exact .inr ⟨by omega, if_neg h⟩

/-- AEAD_ENC answers the sealed input or `CAPACITY`, R144. -/
theorem aeadEnc_cases (p : Params) (x : Buf) :
    (p.maxLen.toNat < x.length + 16 ∧ aeadEnc p x = .err .capacity 0) ∨
    (x.length + 16 ≤ p.maxLen.toNat ∧ aeadEnc p x = .ok (p.cipher.sealBytes p.key p.iv [] x)) := by
  by_cases h : p.maxLen.toNat < x.length + 16
  · exact .inl ⟨h, if_pos h⟩
  · exact .inr ⟨by omega, if_neg h⟩

/-- AEAD_DEC answers `FORMAT`, `AUTH` or the opened ciphertext, R145. -/
theorem aeadDec_cases (p : Params) (x : Buf) :
    (x.length < 16 ∧ aeadDec p x = .err .format 0) ∨
    (16 ≤ x.length ∧ p.cipher.openBytes p.key p.iv [] x = none ∧ aeadDec p x = .err .auth 0) ∨
    (16 ≤ x.length ∧ ∃ y, p.cipher.openBytes p.key p.iv [] x = some y ∧ aeadDec p x = .ok y) := by
  by_cases h : x.length < 16
  · exact .inl ⟨h, if_pos h⟩
  · have e : aeadDec p x = match p.cipher.openBytes p.key p.iv [] x with
        | none => .err .auth 0
        | some y => .ok y := if_neg h
    cases ho : p.cipher.openBytes p.key p.iv [] x with
    | none => exact .inr (.inl ⟨by omega, rfl, by rw [e, ho]⟩)
    | some y => exact .inr (.inr ⟨by omega, y, rfl, by rw [e, ho]⟩)

/-- What follows the prefix answers `FORMAT`, or what the stream decodes to, under the conditions of R126. -/
theorem unframeStream_cases (p : Params) (n : Nat) (s : Buf) :
    unframeStream p n s = .err .format 0 ∨
    ∃ d k, unframeStream p n s = .ok d ∧ n ≤ p.maxLen.toNat ∧ p.codec.inflate s = .ok d k ∧ d.length = n ∧
      (k = s.length ∨ p.trailing = .ignore) := by
  generalize hr : unframeStream p n s = r
  unfold unframeStream at hr
  split at hr
  · exact .inl hr.symm
  · split at hr
    · exact .inl hr.symm
    · exact .inl hr.symm
    · rename_i hn _ d k hi
      split at hr
      · exact .inl hr.symm
      · split at hr
        · exact .inl hr.symm
        · rename_i hd ht
          have hk := (p.codec.inflate_used _ _ _ hi).2
          refine .inr ⟨d, k, hr.symm, by omega, hi, by omega, ?_⟩
          cases h : p.trailing with
          | ignore => exact .inr rfl
          | reject =>
            simp only [h, and_true] at ht
            left
            omega

/-- What follows the prefix succeeds under the conditions of R126. -/
theorem unframeStream_ok {p : Params} {n : Nat} {s d : Buf} {k : Nat} (hn : n ≤ p.maxLen.toNat)
    (hi : p.codec.inflate s = .ok d k) (hd : d.length = n) (hk : k = s.length ∨ p.trailing = .ignore) :
    unframeStream p n s = .ok d := by
  have hk' : ¬(k < s.length ∧ p.trailing = .reject) := by
    rintro ⟨h1, h2⟩
    rcases hk with rfl | hk
    · omega
    · rw [hk] at h2
      cases h2
  simp only [unframeStream, if_neg (show ¬p.maxLen.toNat < n by omega), hi, hd, ne_eq, not_true_eq_false,
    if_false, if_neg hk']

/-- UNFRAME answers `FORMAT`, or what the stream decodes to under the conditions of R126. -/
theorem unframe_cases (p : Params) (x : Buf) :
    unframe p x = .err .format 0 ∨
    ∃ d k, unframe p x = .ok d ∧ 4 ≤ x.length ∧ unbe32 (x.take 4) ≤ p.maxLen.toNat ∧
      p.codec.inflate (x.drop 4) = .ok d k ∧ d.length = unbe32 (x.take 4) ∧
      (k = x.length - 4 ∨ p.trailing = .ignore) := by
  by_cases h : x.length < 4
  · exact .inl (if_pos h)
  · have e : unframe p x = unframeStream p (unbe32 (x.take 4)) (x.drop 4) := if_neg h
    rw [e]
    rcases unframeStream_cases p (unbe32 (x.take 4)) (x.drop 4) with hs | ⟨d, k, hs, hn, hi, hd, hk⟩
    · exact .inl hs
    · exact .inr ⟨d, k, hs, by omega, hn, hi, hd, by simpa using hk⟩

/-- A stage's error carries stage 0 until the sequencer renumbers it (R166). -/
theorem applyStage_err {p : Params} {f : StageFn} {x : Buf} {k : ErrKind} {n : StageNo}
    (h : applyStage p f x = .err k n) : n = 0 := by
  cases f with
  | obfaFwd => cases h
  | obfaInv => cases h
  | obfb => cases h
  | frame =>
    rcases frame_cases p x with ⟨-, e⟩ | ⟨-, e⟩ <;> simp [applyStage, e] at h
    exact h.2.symm
  | unframe =>
    rcases unframe_cases p x with e | ⟨d, k, e, -⟩ <;> simp [applyStage, e] at h
    exact h.2.symm
  | aeadEnc =>
    rcases aeadEnc_cases p x with ⟨-, e⟩ | ⟨-, e⟩ <;> simp [applyStage, e] at h
    exact h.2.symm
  | aeadDec =>
    rcases aeadDec_cases p x with ⟨-, e⟩ | ⟨-, -, e⟩ | ⟨-, y, -, e⟩ <;> simp [applyStage, e] at h
    · exact h.2.symm
    · exact h.2.symm

/-- No stage answers more than `MAX_LEN` bytes to an input within `MAX_LEN`. -/
theorem applyStage_length {p : Params} {f : StageFn} {x y : Buf} (hx : x.length ≤ p.maxLen.toNat)
    (h : applyStage p f x = .ok y) : y.length ≤ p.maxLen.toNat := by
  cases f with
  | obfaFwd =>
    cases h
    simpa using hx
  | obfaInv =>
    cases h
    simpa using hx
  | obfb =>
    cases h
    simpa using hx
  | frame =>
    rcases frame_cases p x with ⟨-, e⟩ | ⟨hl, e⟩ <;> simp only [applyStage, e] at h
    · cases h
    · cases h
      simpa using hl
  | unframe =>
    rcases unframe_cases p x with e | ⟨d, k, e, -, hn, -, hd, -⟩ <;> simp only [applyStage, e] at h
    · cases h
    · cases h
      omega
  | aeadEnc =>
    rcases aeadEnc_cases p x with ⟨-, e⟩ | ⟨hl, e⟩ <;> simp only [applyStage, e] at h
    · cases h
    · cases h
      rw [p.cipher.seal_length]
      exact hl
  | aeadDec =>
    rcases aeadDec_cases p x with ⟨-, e⟩ | ⟨-, -, e⟩ | ⟨hl, z, ho, e⟩ <;> simp only [applyStage, e] at h
    · cases h
    · cases h
    · cases h
      have := p.cipher.open_length _ _ _ _ _ hl ho
      omega

/-- The state after the stage loop differs only in `STAGE`, `W` and `OBS`. -/
theorem runStages_state (op : PipeOp) (d : Bool) (l : List (StageNo × StageFn)) (b : Buf) (s : State) :
    (runStages op d l b s).1 =
      { s with
        stage := (runStages op d l b s).1.stage, work := (runStages op d l b s).1.work,
        obs := (runStages op d l b s).1.obs } := by
  induction l generalizing b s with
  | nil => rfl
  | cons a l ih =>
    obtain ⟨n, f⟩ := a
    simp only [runStages]
    split
    · rfl
    · rename_i y _
      exact ih y (stageDone op d n y { s with stage := n })

/-- The stage loop's result is the core-level pipeline's, R11 and R162: the register level adds nothing. -/
theorem runStages_result (op : PipeOp) (d : Bool) (l : List (StageNo × StageFn)) (b : Buf) (s : State) :
    (runStages op d l b s).2 = pipeline s.hw l b := by
  induction l generalizing b s with
  | nil => rfl
  | cons a l ih =>
    obtain ⟨n, f⟩ := a
    simp only [runStages, pipeline]
    split
    · rfl
    · rename_i y _
      exact ih y (stageDone op d n y { s with stage := n })

/-- The stage loop only appends to `OBS`, and everything it appends is a tap of one of its stages whose buffer is
within the capacity (R176). -/
theorem runStages_obs (op : PipeOp) (d : Bool) (l : List (StageNo × StageFn)) (b : Buf) (s : State)
    (hb : b.length ≤ s.hw.maxLen.toNat) :
    ∃ new, (runStages op d l b s).1.obs = s.obs ++ new ∧
      ∀ e ∈ new, e.stage ∈ l.map Prod.fst ∧ e.buf.length ≤ s.hw.maxLen.toNat := by
  induction l generalizing b s with
  | nil => exact ⟨[], by simp [runStages]⟩
  | cons a l ih =>
    obtain ⟨n, f⟩ := a
    simp only [runStages]
    split
    · exact ⟨[], by simp⟩
    · rename_i y hy
      have hl := applyStage_length hb hy
      obtain ⟨new, hn, hall⟩ := ih y (stageDone op d n y { s with stage := n }) hl
      cases d with
      | false =>
        refine ⟨new, by simpa [stageDone] using hn, fun e he => ?_⟩
        exact ⟨List.mem_cons_of_mem _ (hall e he).1, (hall e he).2⟩
      | true =>
        refine ⟨{ op := op, stage := n, buf := y } :: new, by simpa [stageDone] using hn, fun e he => ?_⟩
        rcases List.mem_cons.1 he with rfl | he
        · exact ⟨by simp, hl⟩
        · exact ⟨List.mem_cons_of_mem _ (hall e he).1, (hall e he).2⟩

/-- `W` stays within the capacity (R34). -/
theorem runStages_work (op : PipeOp) (d : Bool) (l : List (StageNo × StageFn)) (b : Buf) (s : State)
    (hb : b.length ≤ s.hw.maxLen.toNat) (hw : s.work.length ≤ s.hw.maxLen.toNat) :
    (runStages op d l b s).1.work.length ≤ s.hw.maxLen.toNat := by
  induction l generalizing b s with
  | nil => exact hw
  | cons a l ih =>
    obtain ⟨n, f⟩ := a
    simp only [runStages]
    split
    · exact hw
    · rename_i y hy
      have hl := applyStage_length hb hy
      exact ih y (stageDone op d n y { s with stage := n }) hl hl

/-- A pipeline's result is within the capacity. -/
theorem pipeline_length {p : Params} {l : List (StageNo × StageFn)} {b y : Buf} (hb : b.length ≤ p.maxLen.toNat)
    (h : pipeline p l b = .ok y) : y.length ≤ p.maxLen.toNat := by
  induction l generalizing b with
  | nil =>
    cases h
    exact hb
  | cons a l ih =>
    obtain ⟨n, f⟩ := a
    simp only [pipeline] at h
    split at h
    · cases h
    · rename_i z hz
      exact ih (applyStage_length hb hz) h

/-- Every stage of either pipeline has a number other than 0. -/
theorem stages_nonzero (lay : Layering) :
    (∀ n ∈ (encodeStages lay).map Prod.fst, n ≠ 0) ∧ (∀ n ∈ (decodeStages lay).map Prod.fst, n ≠ 0) := by
  cases lay <;> decide

end Sys2Proof.Machine
end

