-- ==== Sys2Proof/Laws/State.lean ====
section
/-! SUPPORT. Every field of the state after each shared update, so that no later proof unfolds one. -/

namespace Sys2Proof.Machine

/-! ### acceptWord -/

@[simp] theorem acceptWord_hw (v : Word) (s : State) : (acceptWord v s).hw = s.hw := rfl
@[simp] theorem acceptWord_cmd (v : Word) (s : State) : (acceptWord v s).cmd = v := rfl
@[simp] theorem acceptWord_status (v : Word) (s : State) : (acceptWord v s).status = s.status.accept (opField v) := rfl
@[simp] theorem acceptWord_inLen (v : Word) (s : State) : (acceptWord v s).inLen = s.inLen := rfl
@[simp] theorem acceptWord_outLen (v : Word) (s : State) : (acceptWord v s).outLen = s.outLen := rfl
@[simp] theorem acceptWord_inPtr (v : Word) (s : State) : (acceptWord v s).inPtr = s.inPtr := rfl
@[simp] theorem acceptWord_outPtr (v : Word) (s : State) : (acceptWord v s).outPtr = s.outPtr := rfl
@[simp] theorem acceptWord_inBuf (v : Word) (s : State) : (acceptWord v s).inBuf = s.inBuf := rfl
@[simp] theorem acceptWord_outBuf (v : Word) (s : State) : (acceptWord v s).outBuf = s.outBuf := rfl
@[simp] theorem acceptWord_stage (v : Word) (s : State) : (acceptWord v s).stage = s.stage := rfl
@[simp] theorem acceptWord_latchOp (v : Word) (s : State) : (acceptWord v s).latchOp = s.latchOp := rfl
@[simp] theorem acceptWord_latchDiag (v : Word) (s : State) : (acceptWord v s).latchDiag = s.latchDiag := rfl
@[simp] theorem acceptWord_work (v : Word) (s : State) : (acceptWord v s).work = s.work := rfl
@[simp] theorem acceptWord_obs (v : Word) (s : State) : (acceptWord v s).obs = s.obs := rfl
@[simp] theorem acceptWord_mf (v : Word) (s : State) : (acceptWord v s).mf = s.mf := rfl
@[simp] theorem acceptWord_inbox (v : Word) (s : State) : (acceptWord v s).inbox = s.inbox := rfl
@[simp] theorem acceptWord_replies (v : Word) (s : State) : (acceptWord v s).replies = s.replies := rfl

/-! ### latchCommand -/

@[simp] theorem latchCommand_hw (v : Word) (s : State) : (latchCommand v s).hw = s.hw := rfl
@[simp] theorem latchCommand_cmd (v : Word) (s : State) : (latchCommand v s).cmd = s.cmd := rfl
@[simp] theorem latchCommand_status (v : Word) (s : State) : (latchCommand v s).status = s.status.start := rfl
@[simp] theorem latchCommand_inLen (v : Word) (s : State) : (latchCommand v s).inLen = s.inLen := rfl
@[simp] theorem latchCommand_outLen (v : Word) (s : State) : (latchCommand v s).outLen = 0 := rfl
@[simp] theorem latchCommand_inPtr (v : Word) (s : State) : (latchCommand v s).inPtr = s.inPtr := rfl
@[simp] theorem latchCommand_outPtr (v : Word) (s : State) : (latchCommand v s).outPtr = 0 := rfl
@[simp] theorem latchCommand_inBuf (v : Word) (s : State) : (latchCommand v s).inBuf = s.inBuf := rfl
@[simp] theorem latchCommand_outBuf (v : Word) (s : State) : (latchCommand v s).outBuf = s.outBuf := rfl
@[simp] theorem latchCommand_stage (v : Word) (s : State) : (latchCommand v s).stage = 0 := rfl
@[simp] theorem latchCommand_latchOp (v : Word) (s : State) : (latchCommand v s).latchOp = opField v := rfl
@[simp] theorem latchCommand_latchDiag (v : Word) (s : State) : (latchCommand v s).latchDiag = diagField v := rfl
@[simp] theorem latchCommand_work (v : Word) (s : State) : (latchCommand v s).work = s.work := rfl
@[simp] theorem latchCommand_obs (v : Word) (s : State) : (latchCommand v s).obs = s.obs := rfl
@[simp] theorem latchCommand_mf (v : Word) (s : State) : (latchCommand v s).mf = s.mf := rfl
@[simp] theorem latchCommand_inbox (v : Word) (s : State) : (latchCommand v s).inbox = s.inbox := rfl
@[simp] theorem latchCommand_replies (v : Word) (s : State) : (latchCommand v s).replies = s.replies := rfl

/-! ### takeError -/

@[simp] theorem takeError_hw (c : ErrCode) (n : StageNo) (s : State) : (takeError c n s).hw = s.hw := rfl
@[simp] theorem takeError_cmd (c : ErrCode) (n : StageNo) (s : State) : (takeError c n s).cmd = s.cmd := rfl
@[simp] theorem takeError_status (c : ErrCode) (n : StageNo) (s : State) : (takeError c n s).status = s.status.fail c n := rfl
@[simp] theorem takeError_inLen (c : ErrCode) (n : StageNo) (s : State) : (takeError c n s).inLen = s.inLen := rfl
@[simp] theorem takeError_outLen (c : ErrCode) (n : StageNo) (s : State) : (takeError c n s).outLen = 0 := rfl
@[simp] theorem takeError_inPtr (c : ErrCode) (n : StageNo) (s : State) : (takeError c n s).inPtr = s.inPtr := rfl
@[simp] theorem takeError_outPtr (c : ErrCode) (n : StageNo) (s : State) : (takeError c n s).outPtr = 0 := rfl
@[simp] theorem takeError_inBuf (c : ErrCode) (n : StageNo) (s : State) : (takeError c n s).inBuf = s.inBuf := rfl
@[simp] theorem takeError_outBuf (c : ErrCode) (n : StageNo) (s : State) : (takeError c n s).outBuf = s.outBuf := rfl
@[simp] theorem takeError_stage (c : ErrCode) (n : StageNo) (s : State) : (takeError c n s).stage = s.stage := rfl
@[simp] theorem takeError_latchOp (c : ErrCode) (n : StageNo) (s : State) : (takeError c n s).latchOp = s.latchOp := rfl
@[simp] theorem takeError_latchDiag (c : ErrCode) (n : StageNo) (s : State) : (takeError c n s).latchDiag = s.latchDiag := rfl
@[simp] theorem takeError_work (c : ErrCode) (n : StageNo) (s : State) : (takeError c n s).work = s.work := rfl
@[simp] theorem takeError_obs (c : ErrCode) (n : StageNo) (s : State) : (takeError c n s).obs = s.obs := rfl
@[simp] theorem takeError_mf (c : ErrCode) (n : StageNo) (s : State) : (takeError c n s).mf = s.mf := rfl
@[simp] theorem takeError_inbox (c : ErrCode) (n : StageNo) (s : State) : (takeError c n s).inbox = s.inbox := rfl
@[simp] theorem takeError_replies (c : ErrCode) (n : StageNo) (s : State) : (takeError c n s).replies = s.replies := rfl

/-! ### completeNop -/

@[simp] theorem completeNop_hw (s : State) : (completeNop s).hw = s.hw := rfl
@[simp] theorem completeNop_cmd (s : State) : (completeNop s).cmd = s.cmd := rfl
@[simp] theorem completeNop_status (s : State) : (completeNop s).status = s.status.finishNop := rfl
@[simp] theorem completeNop_inLen (s : State) : (completeNop s).inLen = s.inLen := rfl
@[simp] theorem completeNop_outLen (s : State) : (completeNop s).outLen = s.outLen := rfl
@[simp] theorem completeNop_inPtr (s : State) : (completeNop s).inPtr = s.inPtr := rfl
@[simp] theorem completeNop_outPtr (s : State) : (completeNop s).outPtr = s.outPtr := rfl
@[simp] theorem completeNop_inBuf (s : State) : (completeNop s).inBuf = s.inBuf := rfl
@[simp] theorem completeNop_outBuf (s : State) : (completeNop s).outBuf = s.outBuf := rfl
@[simp] theorem completeNop_stage (s : State) : (completeNop s).stage = s.stage := rfl
@[simp] theorem completeNop_latchOp (s : State) : (completeNop s).latchOp = s.latchOp := rfl
@[simp] theorem completeNop_latchDiag (s : State) : (completeNop s).latchDiag = s.latchDiag := rfl
@[simp] theorem completeNop_work (s : State) : (completeNop s).work = s.work := rfl
@[simp] theorem completeNop_obs (s : State) : (completeNop s).obs = s.obs := rfl
@[simp] theorem completeNop_mf (s : State) : (completeNop s).mf = s.mf := rfl
@[simp] theorem completeNop_inbox (s : State) : (completeNop s).inbox = s.inbox := rfl
@[simp] theorem completeNop_replies (s : State) : (completeNop s).replies = s.replies := rfl

/-! ### complete_ok -/

@[simp] theorem complete_ok_hw (y : Buf) (s : State) : (complete (.ok y) s).hw = s.hw := rfl
@[simp] theorem complete_ok_cmd (y : Buf) (s : State) : (complete (.ok y) s).cmd = s.cmd := rfl
@[simp] theorem complete_ok_status (y : Buf) (s : State) : (complete (.ok y) s).status = s.status.succeed := rfl
@[simp] theorem complete_ok_inLen (y : Buf) (s : State) : (complete (.ok y) s).inLen = s.inLen := rfl
@[simp] theorem complete_ok_outLen (y : Buf) (s : State) : (complete (.ok y) s).outLen = BitVec.ofNat 32 y.length := rfl
@[simp] theorem complete_ok_inPtr (y : Buf) (s : State) : (complete (.ok y) s).inPtr = s.inPtr := rfl
@[simp] theorem complete_ok_outPtr (y : Buf) (s : State) : (complete (.ok y) s).outPtr = 0 := rfl
@[simp] theorem complete_ok_inBuf (y : Buf) (s : State) : (complete (.ok y) s).inBuf = s.inBuf := rfl
@[simp] theorem complete_ok_outBuf (y : Buf) (s : State) : (complete (.ok y) s).outBuf = s.outBuf.writeBytes 0 y := rfl
@[simp] theorem complete_ok_stage (y : Buf) (s : State) : (complete (.ok y) s).stage = 0 := rfl
@[simp] theorem complete_ok_latchOp (y : Buf) (s : State) : (complete (.ok y) s).latchOp = s.latchOp := rfl
@[simp] theorem complete_ok_latchDiag (y : Buf) (s : State) : (complete (.ok y) s).latchDiag = s.latchDiag := rfl
@[simp] theorem complete_ok_work (y : Buf) (s : State) : (complete (.ok y) s).work = s.work := rfl
@[simp] theorem complete_ok_obs (y : Buf) (s : State) : (complete (.ok y) s).obs = s.obs := rfl
@[simp] theorem complete_ok_mf (y : Buf) (s : State) : (complete (.ok y) s).mf = s.mf := rfl
@[simp] theorem complete_ok_inbox (y : Buf) (s : State) : (complete (.ok y) s).inbox = s.inbox := rfl
@[simp] theorem complete_ok_replies (y : Buf) (s : State) : (complete (.ok y) s).replies = s.replies := rfl

/-! ### complete_err -/

@[simp] theorem complete_err_hw (k : ErrKind) (n : StageNo) (s : State) : (complete (.err k n) s).hw = s.hw := rfl
@[simp] theorem complete_err_cmd (k : ErrKind) (n : StageNo) (s : State) : (complete (.err k n) s).cmd = s.cmd := rfl
@[simp] theorem complete_err_status (k : ErrKind) (n : StageNo) (s : State) : (complete (.err k n) s).status = s.status.fail k.code n := rfl
@[simp] theorem complete_err_inLen (k : ErrKind) (n : StageNo) (s : State) : (complete (.err k n) s).inLen = s.inLen := rfl
@[simp] theorem complete_err_outLen (k : ErrKind) (n : StageNo) (s : State) : (complete (.err k n) s).outLen = 0 := rfl
@[simp] theorem complete_err_inPtr (k : ErrKind) (n : StageNo) (s : State) : (complete (.err k n) s).inPtr = s.inPtr := rfl
@[simp] theorem complete_err_outPtr (k : ErrKind) (n : StageNo) (s : State) : (complete (.err k n) s).outPtr = 0 := rfl
@[simp] theorem complete_err_inBuf (k : ErrKind) (n : StageNo) (s : State) : (complete (.err k n) s).inBuf = s.inBuf := rfl
@[simp] theorem complete_err_outBuf (k : ErrKind) (n : StageNo) (s : State) : (complete (.err k n) s).outBuf = s.outBuf := rfl
@[simp] theorem complete_err_stage (k : ErrKind) (n : StageNo) (s : State) : (complete (.err k n) s).stage = 0 := rfl
@[simp] theorem complete_err_latchOp (k : ErrKind) (n : StageNo) (s : State) : (complete (.err k n) s).latchOp = s.latchOp := rfl
@[simp] theorem complete_err_latchDiag (k : ErrKind) (n : StageNo) (s : State) : (complete (.err k n) s).latchDiag = s.latchDiag := rfl
@[simp] theorem complete_err_work (k : ErrKind) (n : StageNo) (s : State) : (complete (.err k n) s).work = s.work := rfl
@[simp] theorem complete_err_obs (k : ErrKind) (n : StageNo) (s : State) : (complete (.err k n) s).obs = s.obs := rfl
@[simp] theorem complete_err_mf (k : ErrKind) (n : StageNo) (s : State) : (complete (.err k n) s).mf = s.mf := rfl
@[simp] theorem complete_err_inbox (k : ErrKind) (n : StageNo) (s : State) : (complete (.err k n) s).inbox = s.inbox := rfl
@[simp] theorem complete_err_replies (k : ErrKind) (n : StageNo) (s : State) : (complete (.err k n) s).replies = s.replies := rfl

/-! ### recordModelFault -/

@[simp] theorem recordModelFault_hw (r : ModelFault) (s : State) : (recordModelFault r s).hw = s.hw := rfl
@[simp] theorem recordModelFault_cmd (r : ModelFault) (s : State) : (recordModelFault r s).cmd = s.cmd := rfl
@[simp] theorem recordModelFault_status (r : ModelFault) (s : State) : (recordModelFault r s).status = s.status := rfl
@[simp] theorem recordModelFault_inLen (r : ModelFault) (s : State) : (recordModelFault r s).inLen = s.inLen := rfl
@[simp] theorem recordModelFault_outLen (r : ModelFault) (s : State) : (recordModelFault r s).outLen = s.outLen := rfl
@[simp] theorem recordModelFault_inPtr (r : ModelFault) (s : State) : (recordModelFault r s).inPtr = s.inPtr := rfl
@[simp] theorem recordModelFault_outPtr (r : ModelFault) (s : State) : (recordModelFault r s).outPtr = s.outPtr := rfl
@[simp] theorem recordModelFault_inBuf (r : ModelFault) (s : State) : (recordModelFault r s).inBuf = s.inBuf := rfl
@[simp] theorem recordModelFault_outBuf (r : ModelFault) (s : State) : (recordModelFault r s).outBuf = s.outBuf := rfl
@[simp] theorem recordModelFault_stage (r : ModelFault) (s : State) : (recordModelFault r s).stage = s.stage := rfl
@[simp] theorem recordModelFault_latchOp (r : ModelFault) (s : State) : (recordModelFault r s).latchOp = s.latchOp := rfl
@[simp] theorem recordModelFault_latchDiag (r : ModelFault) (s : State) : (recordModelFault r s).latchDiag = s.latchDiag := rfl
@[simp] theorem recordModelFault_work (r : ModelFault) (s : State) : (recordModelFault r s).work = s.work := rfl
@[simp] theorem recordModelFault_obs (r : ModelFault) (s : State) : (recordModelFault r s).obs = s.obs := rfl
@[simp] theorem recordModelFault_mf (r : ModelFault) (s : State) : (recordModelFault r s).mf = if r ∈ s.mf then s.mf else s.mf ++ [r] := rfl
@[simp] theorem recordModelFault_inbox (r : ModelFault) (s : State) : (recordModelFault r s).inbox = s.inbox := rfl
@[simp] theorem recordModelFault_replies (r : ModelFault) (s : State) : (recordModelFault r s).replies = s.replies := rfl

/-! ### stageDone -/

@[simp] theorem stageDone_hw (op : PipeOp) (d : Bool) (n : StageNo) (y : Buf) (s : State) : (stageDone op d n y s).hw = s.hw := rfl
@[simp] theorem stageDone_cmd (op : PipeOp) (d : Bool) (n : StageNo) (y : Buf) (s : State) : (stageDone op d n y s).cmd = s.cmd := rfl
@[simp] theorem stageDone_status (op : PipeOp) (d : Bool) (n : StageNo) (y : Buf) (s : State) : (stageDone op d n y s).status = s.status := rfl
@[simp] theorem stageDone_inLen (op : PipeOp) (d : Bool) (n : StageNo) (y : Buf) (s : State) : (stageDone op d n y s).inLen = s.inLen := rfl
@[simp] theorem stageDone_outLen (op : PipeOp) (d : Bool) (n : StageNo) (y : Buf) (s : State) : (stageDone op d n y s).outLen = s.outLen := rfl
@[simp] theorem stageDone_inPtr (op : PipeOp) (d : Bool) (n : StageNo) (y : Buf) (s : State) : (stageDone op d n y s).inPtr = s.inPtr := rfl
@[simp] theorem stageDone_outPtr (op : PipeOp) (d : Bool) (n : StageNo) (y : Buf) (s : State) : (stageDone op d n y s).outPtr = s.outPtr := rfl
@[simp] theorem stageDone_inBuf (op : PipeOp) (d : Bool) (n : StageNo) (y : Buf) (s : State) : (stageDone op d n y s).inBuf = s.inBuf := rfl
@[simp] theorem stageDone_outBuf (op : PipeOp) (d : Bool) (n : StageNo) (y : Buf) (s : State) : (stageDone op d n y s).outBuf = s.outBuf := rfl
@[simp] theorem stageDone_stage (op : PipeOp) (d : Bool) (n : StageNo) (y : Buf) (s : State) : (stageDone op d n y s).stage = s.stage := rfl
@[simp] theorem stageDone_latchOp (op : PipeOp) (d : Bool) (n : StageNo) (y : Buf) (s : State) : (stageDone op d n y s).latchOp = s.latchOp := rfl
@[simp] theorem stageDone_latchDiag (op : PipeOp) (d : Bool) (n : StageNo) (y : Buf) (s : State) : (stageDone op d n y s).latchDiag = s.latchDiag := rfl
@[simp] theorem stageDone_work (op : PipeOp) (d : Bool) (n : StageNo) (y : Buf) (s : State) : (stageDone op d n y s).work = y := rfl
@[simp] theorem stageDone_obs (op : PipeOp) (d : Bool) (n : StageNo) (y : Buf) (s : State) : (stageDone op d n y s).obs = if d then s.obs ++ [{ op := op, stage := n, buf := y }] else s.obs := rfl
@[simp] theorem stageDone_mf (op : PipeOp) (d : Bool) (n : StageNo) (y : Buf) (s : State) : (stageDone op d n y s).mf = s.mf := rfl
@[simp] theorem stageDone_inbox (op : PipeOp) (d : Bool) (n : StageNo) (y : Buf) (s : State) : (stageDone op d n y s).inbox = s.inbox := rfl
@[simp] theorem stageDone_replies (op : PipeOp) (d : Bool) (n : StageNo) (y : Buf) (s : State) : (stageDone op d n y s).replies = s.replies := rfl

/-! ### platformReset -/

@[simp] theorem platformReset_hw (s : State) : (platformReset s).hw = s.hw := rfl
@[simp] theorem platformReset_cmd (s : State) : (platformReset s).cmd = 0 := rfl
@[simp] theorem platformReset_status (s : State) : (platformReset s).status = { busy := false, done := false, err := .none, lastOp := 0, failStage := 0 } := rfl
@[simp] theorem platformReset_inLen (s : State) : (platformReset s).inLen = 0 := rfl
@[simp] theorem platformReset_outLen (s : State) : (platformReset s).outLen = 0 := rfl
@[simp] theorem platformReset_inPtr (s : State) : (platformReset s).inPtr = 0 := rfl
@[simp] theorem platformReset_outPtr (s : State) : (platformReset s).outPtr = 0 := rfl
@[simp] theorem platformReset_inBuf (s : State) : (platformReset s).inBuf = [] := rfl
@[simp] theorem platformReset_outBuf (s : State) : (platformReset s).outBuf = [] := rfl
@[simp] theorem platformReset_stage (s : State) : (platformReset s).stage = 0 := rfl
@[simp] theorem platformReset_latchOp (s : State) : (platformReset s).latchOp = 0 := rfl
@[simp] theorem platformReset_latchDiag (s : State) : (platformReset s).latchDiag = false := rfl
@[simp] theorem platformReset_work (s : State) : (platformReset s).work = [] := rfl
@[simp] theorem platformReset_obs (s : State) : (platformReset s).obs = [] := rfl
@[simp] theorem platformReset_mf (s : State) : (platformReset s).mf = s.mf := rfl
@[simp] theorem platformReset_inbox (s : State) : (platformReset s).inbox = s.inbox := rfl
@[simp] theorem platformReset_replies (s : State) : (platformReset s).replies = s.replies := rfl

/-! ### Status -/

@[simp] theorem Status.accept_busy (op : BitVec 4) (f : Status) : (f.accept op).busy = f.busy := rfl
@[simp] theorem Status.accept_done (op : BitVec 4) (f : Status) : (f.accept op).done = false := rfl
@[simp] theorem Status.accept_err (op : BitVec 4) (f : Status) : (f.accept op).err = .none := rfl
@[simp] theorem Status.accept_lastOp (op : BitVec 4) (f : Status) : (f.accept op).lastOp = op := rfl
@[simp] theorem Status.accept_failStage (op : BitVec 4) (f : Status) : (f.accept op).failStage = 0 := rfl

@[simp] theorem Status.start_busy (f : Status) : (f.start).busy = true := rfl
@[simp] theorem Status.start_done (f : Status) : (f.start).done = f.done := rfl
@[simp] theorem Status.start_err (f : Status) : (f.start).err = f.err := rfl
@[simp] theorem Status.start_lastOp (f : Status) : (f.start).lastOp = f.lastOp := rfl
@[simp] theorem Status.start_failStage (f : Status) : (f.start).failStage = f.failStage := rfl

@[simp] theorem Status.finishNop_busy (f : Status) : (f.finishNop).busy = f.busy := rfl
@[simp] theorem Status.finishNop_done (f : Status) : (f.finishNop).done = true := rfl
@[simp] theorem Status.finishNop_err (f : Status) : (f.finishNop).err = f.err := rfl
@[simp] theorem Status.finishNop_lastOp (f : Status) : (f.finishNop).lastOp = f.lastOp := rfl
@[simp] theorem Status.finishNop_failStage (f : Status) : (f.finishNop).failStage = f.failStage := rfl

@[simp] theorem Status.succeed_busy (f : Status) : (f.succeed).busy = false := rfl
@[simp] theorem Status.succeed_done (f : Status) : (f.succeed).done = true := rfl
@[simp] theorem Status.succeed_err (f : Status) : (f.succeed).err = .none := rfl
@[simp] theorem Status.succeed_lastOp (f : Status) : (f.succeed).lastOp = f.lastOp := rfl
@[simp] theorem Status.succeed_failStage (f : Status) : (f.succeed).failStage = 0 := rfl

@[simp] theorem Status.fail_busy (c : ErrCode) (n : StageNo) (f : Status) : (f.fail c n).busy = false := rfl
@[simp] theorem Status.fail_done (c : ErrCode) (n : StageNo) (f : Status) : (f.fail c n).done = true := rfl
@[simp] theorem Status.fail_err (c : ErrCode) (n : StageNo) (f : Status) : (f.fail c n).err = c := rfl
@[simp] theorem Status.fail_lastOp (c : ErrCode) (n : StageNo) (f : Status) : (f.fail c n).lastOp = f.lastOp := rfl
@[simp] theorem Status.fail_failStage (c : ErrCode) (n : StageNo) (f : Status) : (f.fail c n).failStage = n := rfl

end Sys2Proof.Machine
end

