-- ==== Sys2Proof/Laws/Ops.lean ====
section
/-! SUPPORT. What the shared operations can do, said once: execution (spec/43_sequencer.md R162), completion
(R163), error completion (spec/60_exceptions.md R200), and the one form every executing command has. -/

namespace Sys2Proof.Machine

open Sys2Proof.Safety

/-- `HasInput` is what the execution step reads, R162. -/
theorem hasInput_iff (s : State) (x : Buf) :
    HasInput s x ↔ s.inLen.toNat ≤ s.hw.maxLen.toNat ∧ s.input? = some x := by
  simp only [HasInput, State.input?, Memory.readBytes_eq_some, Nat.zero_add]
  constructor
  · rintro ⟨h1, h2, h3⟩
    exact ⟨h2, h1, fun i hi => h3 i (by omega)⟩
  · rintro ⟨h2, h1, h3⟩
    exact ⟨h1, h2, fun i hi => h3 i (by omega)⟩

/-- The three things an execution step can do, R162. -/
theorem execute_cases (core : Buf → State → State × Result) (s : State) :
    (s.hw.maxLen.toNat < s.inLen.toNat ∧ execute core s = complete (.err .capacity 0) s) ∨
    (s.inLen.toNat ≤ s.hw.maxLen.toNat ∧ (∃ a, a < s.inLen.toNat ∧ s.inBuf.read? a = none) ∧
      execute core s = recordModelFault .unwrittenRead s) ∨
    (∃ x, HasInput s x ∧ execute core s = complete (core x s).2 (core x s).1) := by
  by_cases h : s.hw.maxLen < s.inLen
  · exact .inl ⟨h, if_pos h⟩
  · have hle : s.inLen.toNat ≤ s.hw.maxLen.toNat := by
      have : ¬s.hw.maxLen.toNat < s.inLen.toNat := h
      omega
    have e : execute core s = match s.input? with
        | none => recordModelFault .unwrittenRead s
        | some x => complete (core x s).2 (core x s).1 := if_neg h
    cases hx : s.input? with
    | none =>
      have := Memory.readBytes_eq_none.1 hx
      exact .inr (.inl ⟨hle, by simpa using this, by rw [e, hx]⟩)
    | some x => exact .inr (.inr ⟨x, (hasInput_iff s x).2 ⟨hle, hx⟩, by rw [e, hx]⟩)

theorem execute_capacity (core : Buf → State → State × Result) {s : State}
    (h : s.hw.maxLen.toNat < s.inLen.toNat) : execute core s = complete (.err .capacity 0) s := if_pos h

theorem execute_input (core : Buf → State → State × Result) {s : State} {x : Buf} (h : HasInput s x) :
    execute core s = complete (core x s).2 (core x s).1 := by
  obtain ⟨hle, hx⟩ := (hasInput_iff s x).1 h
  have hn : ¬s.hw.maxLen < s.inLen := by
    intro hlt
    have : s.hw.maxLen.toNat < s.inLen.toNat := hlt
    omega
  simp [execute, hn, hx]

theorem execute_unwritten (core : Buf → State → State × Result) {s : State}
    (hle : s.inLen.toNat ≤ s.hw.maxLen.toNat) (h : ∃ a, a < s.inLen.toNat ∧ s.inBuf.read? a = none) :
    execute core s = recordModelFault .unwrittenRead s := by
  have hn : ¬s.hw.maxLen < s.inLen := by
    intro hlt
    have : s.hw.maxLen.toNat < s.inLen.toNat := hlt
    omega
  have hx : s.input? = none := Memory.readBytes_eq_none.2 (by simpa using h)
  simp [execute, hn, hx]

/-- The input of a command is determined by the state. -/
theorem hasInput_unique {s : State} {x y : Buf} (hx : HasInput s x) (hy : HasInput s y) : x = y := by
  have h1 := ((hasInput_iff s x).1 hx).2
  have h2 := ((hasInput_iff s y).1 hy).2
  exact Option.some.inj (h1.symm.trans h2)

/-- Successful completion, R163: the result is readable and the rest of `OUT` is as it was. -/
theorem complete_succeeded {s u : State} {y : Buf} (hy : y.length < 2 ^ 32) (ho : u.outBuf = s.outBuf) :
    Succeeded s (complete (.ok y) u) y where
  outLen := by simpa using Nat.mod_eq_of_lt hy
  written i hi := by simp [Memory.read?_writeBytes_zero, hi]
  beyond a ha := by simp [Memory.read?_writeBytes_zero, ho, show ¬a < y.length by omega]
  outPtr := rfl
  stage := rfl
  busy := rfl
  done := rfl
  err := rfl
  failStage := rfl

/-- Error completion, R163 and R200. -/
theorem complete_failed {s u : State} (k : ErrKind) (n : StageNo) (ho : u.outBuf = s.outBuf) :
    Failed s (complete (.err k n) u) k.code n where
  outLen := rfl
  outBuf := ho
  outPtr := rfl
  stage := rfl
  busy := rfl
  done := rfl
  err := rfl
  failStage := rfl

/-- Completion changes the output side and `STATUS` only. -/
theorem complete_kept {s u : State} (r : Result) (h : InputSideKept s u) : InputSideKept s (complete r u) := by
  cases r <;> exact ⟨h.hw, h.cmd, h.lastOp, h.inLen, h.inPtr, h.inBuf, h.latchOp, h.latchDiag, h.inbox, h.replies⟩

@[simp] theorem complete_work (r : Result) (s : State) : (complete r s).work = s.work := by cases r <;> rfl
@[simp] theorem complete_obs (r : Result) (s : State) : (complete r s).obs = s.obs := by cases r <;> rfl
@[simp] theorem complete_mf (r : Result) (s : State) : (complete r s).mf = s.mf := by cases r <;> rfl

theorem inputSideKept_refl (s : State) : InputSideKept s s := ⟨rfl, rfl, rfl, rfl, rfl, rfl, rfl, rfl, rfl, rfl⟩

/-- Stopping at an unwritten cell twice is stopping once: the faulted command is stuck (R205, U21). -/
theorem recordModelFault_twice (r : ModelFault) (s : State) :
    recordModelFault r (recordModelFault r s) = recordModelFault r s := by
  simp only [recordModelFault]
  by_cases h : r ∈ s.mf <;> simp [h]

/-! ## Every executing command as one execution step -/

/-- What `DISPATCH` gives the execution step for each command, R166. -/
def commandCore : Instr → Buf → State → State × Result
  | .nop _ => fun _ s => (s, .ok [])
  | .obfaFwd _ => fun x s => (s, .ok (obfaFwd x))
  | .obfaInv _ => fun x s => (s, .ok (obfaInv x))
  | .obfb _ => fun x s => (s, .ok (obfb x))
  | .frame _ => fun x s => (s, frame s.hw x)
  | .unframe _ => fun x s => (s, unframe s.hw x)
  | .aeadEnc _ => fun x s => (s, aeadEnc s.hw x)
  | .aeadDec _ => fun x s => (s, aeadDec s.hw x)
  | .encode d => fun x s => runStages .encode d (encodeStages s.hw.layering) x s
  | .decode d => fun x s => runStages .decode d (decodeStages s.hw.layering) x s

/-- Every command that executes is one execution step of its core function. -/
theorem exec_eq_execute {i : Instr} (h : executes i = true) (s : State) :
    exec i s = .next (execute (commandCore i) s) := by
  cases i with
  | nop d => simp [executes, opcodeOf] at h
  | obfaFwd d => rfl
  | obfaInv d => rfl
  | obfb d => rfl
  | frame d => rfl
  | unframe d => rfl
  | aeadEnc d => rfl
  | aeadDec d => rfl
  | encode d => rfl
  | decode d => rfl

/-- A command's core function changes nothing but `STAGE`, `W` and `OBS` before completion. -/
theorem commandCore_state (i : Instr) (x : Buf) (s : State) :
    (commandCore i x s).1 =
      { s with
        stage := (commandCore i x s).1.stage, work := (commandCore i x s).1.work,
        obs := (commandCore i x s).1.obs } := by
  cases i with
  | encode d => exact runStages_state ..
  | decode d => exact runStages_state ..
  | nop d => rfl
  | obfaFwd d => rfl
  | obfaInv d => rfl
  | obfb d => rfl
  | frame d => rfl
  | unframe d => rfl
  | aeadEnc d => rfl
  | aeadDec d => rfl

theorem commandCore_kept (i : Instr) (x : Buf) (s : State) : InputSideKept s (commandCore i x s).1 := by
  rw [commandCore_state]
  exact ⟨rfl, rfl, rfl, rfl, rfl, rfl, rfl, rfl, rfl, rfl⟩

theorem commandCore_outBuf (i : Instr) (x : Buf) (s : State) : (commandCore i x s).1.outBuf = s.outBuf := by
  rw [commandCore_state]

theorem commandCore_mf (i : Instr) (x : Buf) (s : State) : (commandCore i x s).1.mf = s.mf := by
  rw [commandCore_state]

/-- R163: no command's result is longer than `MAX_LEN`. -/
theorem commandCore_length {i : Instr} {x y : Buf} {s : State} (hx : x.length ≤ s.hw.maxLen.toNat)
    (h : (commandCore i x s).2 = .ok y) : y.length ≤ s.hw.maxLen.toNat := by
  cases i with
  | nop d =>
    cases h
    simp
  | obfaFwd d => exact applyStage_length (f := .obfaFwd) hx h
  | obfaInv d => exact applyStage_length (f := .obfaInv) hx h
  | obfb d => exact applyStage_length (f := .obfb) hx h
  | frame d => exact applyStage_length (f := .frame) hx h
  | unframe d => exact applyStage_length (f := .unframe) hx h
  | aeadEnc d => exact applyStage_length (f := .aeadEnc) hx h
  | aeadDec d => exact applyStage_length (f := .aeadDec) hx h
  | encode d =>
    rw [commandCore, runStages_result] at h
    exact pipeline_length hx h
  | decode d =>
    rw [commandCore, runStages_result] at h
    exact pipeline_length hx h

/-- A command only appends taps of the four stages, each within the capacity (R176). -/
theorem commandCore_obs {i : Instr} {x : Buf} {s : State} (hx : x.length ≤ s.hw.maxLen.toNat) :
    ∃ new, (commandCore i x s).1.obs = s.obs ++ new ∧
      ∀ e ∈ new, e.stage ≠ 0 ∧ e.buf.length ≤ s.hw.maxLen.toNat := by
  have none_new : ∀ u : State, u.obs = s.obs → ∃ new, u.obs = s.obs ++ new ∧
      ∀ e ∈ new, e.stage ≠ 0 ∧ e.buf.length ≤ s.hw.maxLen.toNat := fun u hu => ⟨[], by simp [hu]⟩
  cases i with
  | encode d =>
    obtain ⟨new, h1, h2⟩ := runStages_obs .encode d (encodeStages s.hw.layering) x s hx
    exact ⟨new, h1, fun e he => ⟨(stages_nonzero _).1 _ (h2 e he).1, (h2 e he).2⟩⟩
  | decode d =>
    obtain ⟨new, h1, h2⟩ := runStages_obs .decode d (decodeStages s.hw.layering) x s hx
    exact ⟨new, h1, fun e he => ⟨(stages_nonzero _).2 _ (h2 e he).1, (h2 e he).2⟩⟩
  | nop d => exact none_new _ rfl
  | obfaFwd d => exact none_new _ rfl
  | obfaInv d => exact none_new _ rfl
  | obfb d => exact none_new _ rfl
  | frame d => exact none_new _ rfl
  | unframe d => exact none_new _ rfl
  | aeadEnc d => exact none_new _ rfl
  | aeadDec d => exact none_new _ rfl

theorem commandCore_work {i : Instr} {x : Buf} {s : State} (hx : x.length ≤ s.hw.maxLen.toNat)
    (hw : s.work.length ≤ s.hw.maxLen.toNat) : (commandCore i x s).1.work.length ≤ s.hw.maxLen.toNat := by
  cases i with
  | encode d => exact runStages_work _ _ _ _ _ hx hw
  | decode d => exact runStages_work _ _ _ _ _ hx hw
  | nop d => exact hw
  | obfaFwd d => exact hw
  | obfaInv d => exact hw
  | obfb d => exact hw
  | frame d => exact hw
  | unframe d => exact hw
  | aeadEnc d => exact hw
  | aeadDec d => exact hw

end Sys2Proof.Machine
end

