-- ==== Sys2Proof/Laws/Agents.lean ====
section
/-! SUPPORT. What a step does, event by event (spec/20_memory.md R58): the provers cite these instead of
unfolding the step. -/

namespace Sys2Proof.Machine

theorem step_silent {s : State} (h : s.inbox = []) : step s = blockTurn s := by simp [step, advance, h]

theorem step_event {s : State} {e : Event} {rest : List Event} (h : s.inbox = e :: rest) :
    step s = handleEvent e { s with inbox := rest } := by simp [step, advance, h]

theorem blockTurn_idle {s : State} (h : s.status.busy = false) : blockTurn s = .next s := by simp [blockTurn, h]

theorem blockTurn_busy {s : State} {i : Instr} (h : s.status.busy = true) (hi : latchedCommand s = some i) :
    blockTurn s = exec i s := by simp [blockTurn, h, hi]

/-- The block's turn, in every state: one command's meaning, or nothing. -/
theorem blockTurn_cases (s : State) :
    (∃ i, s.status.busy = true ∧ latchedCommand s = some i ∧ blockTurn s = exec i s) ∨ blockTurn s = .next s := by
  cases hb : s.status.busy with
  | false => exact .inr (blockTurn_idle hb)
  | true =>
    cases hi : latchedCommand s with
    | none => exact .inr (by simp [blockTurn, hb, hi])
    | some i => exact .inl ⟨i, rfl, rfl, blockTurn_busy hb hi⟩

/-- A host write, in every state: ignored, a command accepted, or a register written (R40, R52, R160). -/
theorem hostWrite_cases (width : Nat) (offset : BitVec 8) (v : Word) (s : State) :
    hostWrite width offset v s = .next s ∨
    (s.status.busy = false ∧ hostWrite width offset v s = acceptCommand v s) ∨
    (s.status.busy = false ∧ registerAt offset ≠ .cmd ∧
      hostWrite width offset v s = .next (writeRegister (registerAt offset) v s)) := by
  unfold hostWrite
  split
  · rename_i h
    have hb : s.status.busy = false := by
      simp only [Bool.and_eq_true, Bool.not_eq_true'] at h
      exact h.2
    split
    · exact .inr (.inl ⟨hb, rfl⟩)
    · exact .inr (.inr ⟨hb, by assumption, rfl⟩)
  · exact .inl rfl

theorem hostWrite_busy (width : Nat) (offset : BitVec 8) (v : Word) {s : State} (h : s.status.busy = true) :
    hostWrite width offset v s = .next s := by simp [hostWrite, h]

/-- Acceptance, for every command word (R160): illegal, NOP, or latched. -/
theorem acceptCommand_cases (v : Word) (s : State) :
    ((∃ e, decode v = .error e) ∧ acceptCommand v s = .next (completeIllegal (acceptWord v s))) ∨
    (∃ d, decode v = .ok (.nop d) ∧ acceptCommand v s = .next (completeNop (acceptWord v s))) ∨
    (∃ i, decode v = .ok i ∧ Safety.executes i = true ∧
      acceptCommand v s = .next (latchCommand v (acceptWord v s))) := by
  unfold acceptCommand
  cases h : decode v with
  | error e => exact .inl ⟨⟨e, rfl⟩, rfl⟩
  | ok i =>
    cases i with
    | nop d => exact .inr (.inl ⟨d, rfl, rfl⟩)
    | obfaFwd d => exact .inr (.inr ⟨_, rfl, rfl, rfl⟩)
    | obfaInv d => exact .inr (.inr ⟨_, rfl, rfl, rfl⟩)
    | obfb d => exact .inr (.inr ⟨_, rfl, rfl, rfl⟩)
    | frame d => exact .inr (.inr ⟨_, rfl, rfl, rfl⟩)
    | unframe d => exact .inr (.inr ⟨_, rfl, rfl, rfl⟩)
    | aeadEnc d => exact .inr (.inr ⟨_, rfl, rfl, rfl⟩)
    | aeadDec d => exact .inr (.inr ⟨_, rfl, rfl, rfl⟩)
    | encode d => exact .inr (.inr ⟨_, rfl, rfl, rfl⟩)
    | decode d => exact .inr (.inr ⟨_, rfl, rfl, rfl⟩)

/-- A host read changes nothing but, for `OUT_DATA`, the pointer (R54). -/
theorem hostRead_state (width : Nat) (offset : BitVec 8) (s : State) :
    (hostRead width offset s).2 = s ∨
    (s.status.busy = false ∧ s.outPtr < s.outLen ∧ (hostRead width offset s).2 = { s with outPtr := s.outPtr + 1 }) := by
  unfold hostRead
  split
  · unfold readRegister
    split <;> first
      | exact .inl rfl
      | skip
    unfold readOutData
    split
    · rename_i h
      exact .inr ⟨h.1, h.2, rfl⟩
    · exact .inl rfl
  · exact .inl rfl

/-- While a command executes a host read changes nothing (R40). -/
theorem hostRead_busy (width : Nat) (offset : BitVec 8) {s : State} (h : s.status.busy = true) :
    (hostRead width offset s).2 = s := by
  rcases hostRead_state width offset s with h' | ⟨h', -⟩
  · exact h'
  · rw [h] at h'
    cases h'

/-- A plain register write changes neither the parameters, `STATUS`, the output cells, the hidden state nor the
trace, and leaves written cells of `IN` written (R54). -/
theorem writeRegister_frame (r : Register) (v : Word) (s : State) :
    writeRegister r v s =
      { s with
        inLen := (writeRegister r v s).inLen, inPtr := (writeRegister r v s).inPtr,
        outPtr := (writeRegister r v s).outPtr, inBuf := (writeRegister r v s).inBuf } ∧
    ∀ a, s.inBuf.read? a ≠ none → (writeRegister r v s).inBuf.read? a ≠ none := by
  cases r <;> try exact ⟨rfl, fun _ h => h⟩
  simp only [writeRegister, writeInData]
  split
  · exact ⟨rfl, fun a h => Memory.read?_write_isSome _ _ _ _ h⟩
  · exact ⟨rfl, fun _ h => h⟩

/-- A host read returns the same value whatever events are to come and whatever was read before. -/
theorem hostRead_value (width : Nat) (offset : BitVec 8) (s : State) (es : List Event) (vs : List Word) :
    (hostRead width offset { s with inbox := es, replies := vs }).1 = (hostRead width offset s).1 := by
  unfold hostRead
  split
  · unfold readRegister
    split <;> try rfl
    unfold readOutData
    split <;> rfl
  · rfl

/-- Running one more step, for a step that answers. -/
theorem run_succ (n : Nat) {s t : State} (h : step s = .next t) :
    Host.Core.run Sys2Proof.core (n + 1) s = Host.Core.run Sys2Proof.core n t := by
  have h' : Sys2Proof.core.step s = .next t := h
  simp only [Host.Core.run, h']

end Sys2Proof.Machine
end

