-- ==== Sys2Proof/Laws/PerInstr.lean ====
section
/-! SUPPORT. The statements made per command, one lemma per constructor of `Instr`. -/

namespace Sys2Proof.Laws

/-- The command word of a command carries its `OP` and `DIAG`, has `RSV` = 0, and is legal (R70, R72). -/
def WordFields.Statement (i : Instr) : Prop :=
  opField (encode i) = opcodeOf i ∧ diagField (encode i) = diagOf i ∧ rsvField (encode i) = 0 ∧
    legalWord (encode i) = true

theorem WordFields.nop (d : Bool) : WordFields.Statement (.nop d) := by
  cases d <;> exact ⟨rfl, rfl, rfl, rfl⟩

theorem WordFields.obfaFwd (d : Bool) : WordFields.Statement (.obfaFwd d) := by
  cases d <;> exact ⟨rfl, rfl, rfl, rfl⟩

theorem WordFields.obfaInv (d : Bool) : WordFields.Statement (.obfaInv d) := by
  cases d <;> exact ⟨rfl, rfl, rfl, rfl⟩

theorem WordFields.obfb (d : Bool) : WordFields.Statement (.obfb d) := by
  cases d <;> exact ⟨rfl, rfl, rfl, rfl⟩

theorem WordFields.frame (d : Bool) : WordFields.Statement (.frame d) := by
  cases d <;> exact ⟨rfl, rfl, rfl, rfl⟩

theorem WordFields.unframe (d : Bool) : WordFields.Statement (.unframe d) := by
  cases d <;> exact ⟨rfl, rfl, rfl, rfl⟩

theorem WordFields.aeadEnc (d : Bool) : WordFields.Statement (.aeadEnc d) := by
  cases d <;> exact ⟨rfl, rfl, rfl, rfl⟩

theorem WordFields.aeadDec (d : Bool) : WordFields.Statement (.aeadDec d) := by
  cases d <;> exact ⟨rfl, rfl, rfl, rfl⟩

theorem WordFields.encode (d : Bool) : WordFields.Statement (.encode d) := by
  cases d <;> exact ⟨rfl, rfl, rfl, rfl⟩

theorem WordFields.decode (d : Bool) : WordFields.Statement (.decode d) := by
  cases d <;> exact ⟨rfl, rfl, rfl, rfl⟩

end Sys2Proof.Laws
end

