-- ==== Sys2Proof/Tests/Slice0.lean ====
section
/-! SUPPORT. Small tests, their expected values taken from spec/95_test_vectors.md or worked out by hand from the
rule named, and for each statement with hypotheses a witness that something meets them. The test doubles of
95_test_vectors.md §4 stand in for the codec and the cipher, so that the kernel can evaluate them. -/

namespace Sys2Proof.Tests

open Sys2Proof.Machine Sys2Proof.Safety

/-! ## Helpers -/

/-- The parameters of 95_test_vectors.md with another `MAX_LEN`; the key and IV bytes are any two that differ. -/
def smallBlock (maxLen : Word) : Params where
  maxLen := maxLen
  keyByte := 0x89
  ivByte := 0x10
  deflateFmt := .testDouble
  aeadAlg := .testDouble
  regBase := 0

/-- The parameters of 95_test_vectors.md: `MAX_LEN` = 64, `A_OUTER`, `REJECT`. -/
def block : Params := smallBlock 64

/-- An idle block whose input is `x`. -/
def loaded (p : Params) (x : Buf) : State :=
  { State.powerUp p with inBuf := Memory.writeBytes [] 0 x, inLen := BitVec.ofNat 32 x.length }

/-- A block that has accepted the command `i` on the input `x`. -/
def accepted (p : Params) (i : Instr) (x : Buf) : State :=
  latchCommand (encode i) (acceptWord (encode i) (loaded p x))

/-- A block with the result `y`. -/
def holding (p : Params) (y : Buf) : State :=
  { State.powerUp p with outBuf := Memory.writeBytes [] 0 y, outLen := BitVec.ofNat 32 y.length }

/-- `s` with one event next. -/
def facing (s : State) (e : Event) : State := { s with inbox := [e] }

/-- `STATUS`, the readable output and the number of taps after a step. -/
def answer (o : Host.Outcome State Fault Refusal) : Option (Word × Option Buf × Nat) :=
  match o with
  | .next t => some (t.status.word, t.output?, t.obs.length)
  | .fault _ => none
  | .refused _ => none

/-- What a command answers on an input, from its acceptance on. -/
def run (p : Params) (i : Instr) (x : Buf) : Option (Word × Option Buf × Nat) :=
  answer (exec i (accepted p i x))

/-- The values read so far, after a step. -/
def readBack (o : Host.Outcome State Fault Refusal) : Option (List Word) :=
  match o with
  | .next t => some t.replies
  | .fault _ => none
  | .refused _ => none

/-- Whether a step answers a next state. -/
def goesOn (o : Host.Outcome State Fault Refusal) : Bool :=
  match o with
  | .next _ => true
  | .fault _ => false
  | .refused _ => false

/-- "hello", 95_test_vectors.md. -/
def hello : Buf := [0x68, 0x65, 0x6C, 0x6C, 0x6F]

/-- "hi", 95_test_vectors.md. -/
def hi : Buf := [0x68, 0x69]

/-- 95_test_vectors.md §4.4: `ENCODE([])` under `A_OUTER`. -/
def encodedEmpty : Buf :=
  [0x6D, 0x7A, 0x57, 0xA8, 0x81, 0x96, 0xD3, 0xFC, 0xE5, 0x12, 0x3F, 0x20, 0x49, 0x7E, 0x6B, 0x84, 0x0C, 0xE6,
    0x72, 0x4B, 0xA0, 0xB5]

/-- 95_test_vectors.md §4.3: `AEAD_ENC(68 69)`. -/
def sealedHi : Buf :=
  [0xCD, 0xCC, 0xD3, 0xD4, 0xD5, 0xD6, 0xD7, 0xD8, 0xD9, 0xDA, 0xDB, 0xDC, 0xDD, 0xDE, 0xDF, 0xE0, 0xE1, 0xE2]

/-- The input of a loaded block is what was loaded. -/
theorem loaded_hasInput {p : Params} {x : Buf} (h : x.length ≤ p.maxLen.toNat) : HasInput (loaded p x) x := by
  have := p.maxLen.isLt
  have hl : (BitVec.ofNat 32 x.length).toNat = x.length := by
    rw [BitVec.toNat_ofNat]
    omega
  refine ⟨hl.symm, ?_, fun i hi => ?_⟩
  · show (BitVec.ofNat 32 x.length).toNat ≤ p.maxLen.toNat
    omega
  · show (Memory.writeBytes [] 0 x).read? i = x[i]?
    rw [Memory.read?_writeBytes_zero, if_pos hi]

/-! ## Well-formedness smoke -/

/-- R72: an `OP` of 0xA is refused, whatever `RSV` is. -/
theorem test_wf_refuses_reserved_op : legalWord 0x0000000A = false ∧ legalWord 0x0000000F = false := by decide

/-- R72: a nonzero `RSV` is refused, at either end of the field, whatever `OP` is. -/
theorem test_wf_refuses_rsv : legalWord 0x00000021 = false ∧ legalWord 0x80000001 = false := by decide

theorem test_wf_accepts : legalWord 0x00000009 = true ∧ legalWord 0x00000019 = true := by decide

/-- R7: a capacity of 0, and equal key and IV bytes, are refused; R50: so is an unaligned window. -/
theorem test_wf_refuses_params :
    (smallBlock 0).wf = false ∧ { block with ivByte := 0x89 }.wf = false ∧ { block with regBase := 2 }.wf = false ∧
      block.wf = true := by decide

/-! ## Decoding: words written out from R70, R71 and R75 -/

theorem test_decode_nop : decode 0x00000000 = .ok (.nop false) := by decide
theorem test_decode_obfaFwd : decode 0x00000001 = .ok (.obfaFwd false) := by decide
theorem test_decode_obfaInv : decode 0x00000012 = .ok (.obfaInv true) := by decide
theorem test_decode_obfb : decode 0x00000003 = .ok (.obfb false) := by decide
theorem test_decode_frame : decode 0x00000014 = .ok (.frame true) := by decide
theorem test_decode_unframe : decode 0x00000005 = .ok (.unframe false) := by decide
theorem test_decode_aeadEnc : decode 0x00000016 = .ok (.aeadEnc true) := by decide
theorem test_decode_aeadDec : decode 0x00000007 = .ok (.aeadDec false) := by decide
theorem test_decode_encode : decode 0x00000018 = .ok (.encode true) := by decide
theorem test_decode_decode : decode 0x00000009 = .ok (.decode false) := by decide
theorem test_decode_reserved_op : decode 0x0000000A = .error .reservedOp := by decide
theorem test_decode_reserved_bits : decode 0x00000021 = .error .reservedBits := by decide
theorem test_encode_words : encode (.decode true) = 0x00000019 ∧ encode (.obfb false) = 0x00000003 := by decide
theorem test_table_word : decodeTableWord 32 6 = some (.aeadEnc false) ∧ decodeTableWord 32 0x2A = none := by decide

/-- Every placed command runs as the first one after reset, whatever the open parameters are. -/
theorem test_placed_commands_run :
    ∀ w : Fin 10, goesOn (step (State.reset.withFetchWord 32 w.val)) = true := by
  intro w
  fin_cases w <;> rfl

/-! ## The commands -/

theorem test_nop : run block (.nop false) hello = some (0x00000003, some [], 0) := by decide

/-- R170: NOP keeps a result readable. -/
theorem test_nop_keeps_result :
    answer (step (facing (holding block hi) (.write 32 0x00 0x00000010))) = some (0x00000002, some hi, 0) := by decide

/-- V2.3.7. -/
theorem test_obfaFwd_hello :
    run block (.obfaFwd false) hello = some (0x00000102, some [0x6A, 0x6C, 0x97, 0x93, 0x99], 0) := by decide

/-- V2.3.4: OBFA_FWD and OBFA_INV differ. -/
theorem test_obfaFwd_zeros : run block (.obfaFwd true) [0, 0] = some (0x00000102, some [0x02, 0x00], 0) := by decide

/-- V2.3.7. -/
theorem test_obfaInv_hello :
    run block (.obfaInv false) hello = some (0x00000202, some [0x9E, 0x9A, 0x97, 0x65, 0x6D], 0) := by decide

/-- V2.3.1. -/
theorem test_obfaInv_empty : run block (.obfaInv false) [] = some (0x00000202, some [], 0) := by decide

/-- V2.3.7. -/
theorem test_obfb_hello :
    run block (.obfb false) hello = some (0x00000302, some [0x6D, 0x61, 0x6F, 0x6E, 0x6E], 0) := by decide

/-- V2.3.5. -/
theorem test_obfb_ones : run block (.obfb false) [0xFF, 0xFF, 0xFF] = some (0x00000302, some [0xFC, 0xFD, 0xFE], 0) := by
  decide

/-- V3.1.4: an escaped byte, and the uncompressed length in the prefix. -/
theorem test_frame_escape :
    run block (.frame false) [0xFF] = some (0x00000402, some [0, 0, 0, 1, 0xFF, 0xFF, 0xFF, 0x00], 0) := by decide

/-- V3.1.7: 9 bytes do not fit in 8. -/
theorem test_frame_capacity : run (smallBlock 8) (.frame false) [1, 2, 3] = some (0x0000040E, some [], 0) := by decide

/-- V3.2.5, the scenario of the source. -/
theorem test_unframe_five :
    run block (.unframe false) [0, 0, 0, 5, 0x68, 0x65, 0x6C, 0x6C, 0x6F, 0xFF, 0x00] =
      some (0x00000502, some hello, 0) := by decide

/-- V3.2.13: one trailing byte, rejected and ignored. -/
theorem test_unframe_trailing :
    run block (.unframe false) [0, 0, 0, 2, 0x68, 0x69, 0xFF, 0x00, 0xAA] = some (0x00000506, some [], 0) ∧
    run { block with trailing := .ignore } (.unframe false) [0, 0, 0, 2, 0x68, 0x69, 0xFF, 0x00, 0xAA] =
      some (0x00000502, some hi, 0) := by decide

/-- §4.3. -/
theorem test_aeadEnc_hi : run block (.aeadEnc false) hi = some (0x00000602, some sealedHi, 0) := by decide

/-- 4 + 16 bytes do not fit in 19. -/
theorem test_aeadEnc_capacity : run (smallBlock 19) (.aeadEnc false) [1, 2, 3, 4] = some (0x0000060E, some [], 0) := by
  decide

/-- V4.3.4. -/
theorem test_aeadDec_hi : run block (.aeadDec false) sealedHi = some (0x00000702, some hi, 0) := by decide

/-- V4.3.1 and V4.3.3: too short, and a tag that does not verify. -/
theorem test_aeadDec_errors :
    run block (.aeadDec false) [0, 1, 2, 3, 4, 5, 6, 7, 8, 9, 10, 11, 12, 13, 14] = some (0x00000706, some [], 0) ∧
    run block (.aeadDec false) [1, 2, 3, 4, 5, 6, 7, 8, 9, 10, 11, 12, 13, 14, 15, 16] =
      some (0x0000070A, some [], 0) := by decide

/-- §4.4: the output and the four taps. -/
theorem test_encode_empty : run block (.encode true) [] = some (0x00000802, some encodedEmpty, 4) := by decide

/-- R172: `CAPACITY` at stage 3, after two taps, as in V4.6.2; at stage 1 without a tap, as in V4.6.4. -/
theorem test_encode_capacity :
    run (smallBlock 24) (.encode true) [1, 2, 3] = some (0x0000380E, some [], 2) ∧
    run (smallBlock 8) (.encode true) [1, 2, 3] = some (0x0000180E, some [], 0) := by decide

/-- §4.4. -/
theorem test_decode_empty : run block (.decode true) encodedEmpty = some (0x00000902, some [], 4) := by decide

/-- V4.5.2: `FORMAT` at stage 2, after the tap of stage 1. -/
theorem test_decode_short : run block (.decode true) [0, 1, 2, 3, 4, 5, 6, 7, 8, 9] = some (0x00002906, some [], 1) := by
  decide

/-! ## Registers -/

/-- V6.1 to V6.3. -/
theorem test_identification_reads :
    readBack (step (facing (State.powerUp block) (.read 32 0x20))) = some [0x04101010] ∧
    readBack (step (facing (State.powerUp block) (.read 32 0x24))) = some [0x00000040] ∧
    readBack (step (facing (State.powerUp { block with layering := .aInner, trailing := .ignore }) (.read 32 0x28))) =
      some [0x00000003] := by decide

/-- V6.8: a misaligned read returns 0. -/
theorem test_misaligned_read : readBack (step (facing (State.powerUp block) (.read 32 0x21))) = some [0] := by decide

/-- V6.13: `OUT_DATA` at the last byte of "hello" and beyond it. -/
theorem test_out_data :
    step (facing { holding block hello with outPtr := 4 } (.read 32 0x1C)) =
      .next { holding block hello with outPtr := 5, replies := [0x6F] } ∧
    step (facing { holding block hello with outPtr := 5 } (.read 32 0x1C)) =
      .next { holding block hello with outPtr := 5, replies := [0] } := ⟨rfl, rfl⟩

/-- V6.9 and V6.10: `IN_DATA` at `MAX_LEN` and one below it. -/
theorem test_in_data :
    step (facing { State.powerUp block with inPtr := 0x40 } (.write 32 0x14 0x77)) =
      .next { State.powerUp block with inPtr := 0x40 } ∧
    step (facing { State.powerUp block with inPtr := 0x3F } (.write 32 0x14 0x177)) =
      .next { State.powerUp block with inPtr := 0x40, inBuf := [(63, 0x77)] } := ⟨rfl, rfl⟩

/-- Program P3: an illegal command is stored and completes at once. -/
theorem test_illegal_command :
    answer (step (facing (holding block hello) (.write 32 0x00 0x0000000A))) = some (0x00000A12, some [], 0) ∧
    answer (step (facing (holding block hello) (.write 32 0x00 0x00000021))) = some (0x00000112, some [], 0) := by decide

/-- Program P5: a command that reads an unwritten cell stays busy, and a reset keeps the model fault. -/
theorem test_unwritten_read :
    exec (.obfb false) { accepted block (.obfb false) [] with inLen := 3 } =
      .next { accepted block (.obfb false) [] with inLen := 3, mf := [.unwrittenRead] } ∧
    step (facing { accepted block (.obfb false) [] with inLen := 3, mf := [.unwrittenRead] } .reset) =
      .next { State.powerUp block with mf := [.unwrittenRead] } := ⟨rfl, rfl⟩

/-- R85: `LOAD` of two bytes, and R86: its bus accesses. -/
theorem test_load_program :
    pseudoLoad hi = [.wr .inPtr 0, .wr .inData 0x68, .wr .inData 0x69, .wr .inLen 2] ∧
    busEvent (.w 0x00 0x00000008) = .write 32 0x00 0x00000008 ∧ offsetOf .status = 0x04 := by decide

/-- R84: a host program polls until `DONE` is 1. -/
theorem test_wait_branches :
    (hostTurn { prog := pseudoWait 0 7, pos := 2, vars := [(7, 0x00000101)] } (State.powerUp block)).1.pos = 0 ∧
    (hostTurn { prog := pseudoWait 0 7, pos := 2, vars := [(7, 0x00000102)] } (State.powerUp block)).1.pos = 3 := by decide

/-! ## Witnesses: for each statement with hypotheses, a state and operands that meet them, clause by clause -/

theorem witness_cmd_write_cases :
    (facing (accepted block (.obfb false) hi) (.write 32 0x00 1)).status.busy = true ∧
    (facing (loaded block hi) (.write 32 0x00 0x0A)).status.busy = false ∧ (0x0A : Word).toNat % 16 ≥ 10 ∧
    (0x21 : Word).toNat % 16 < 10 ∧ (0x21 : Word).toNat / 32 ≠ 0 ∧
    (0x10 : Word).toNat % 16 = 0 ∧ (0x10 : Word).toNat / 32 = 0 ∧
    (0x19 : Word).toNat % 16 = 9 ∧ (0x19 : Word).toNat / 32 = 0 ∧
    (facing (loaded block hi) (.write 32 0x00 0x19)).inbox = .write 32 0x00 0x19 :: [] := by decide

theorem witness_step_runs_nop :
    (facing (loaded block hi) (.write 32 0x00 0x10)).status.busy = false ∧ decode 0x10 = .ok (.nop true) ∧
    (facing (loaded block hi) (.write 32 0x00 0x10)).inbox = .write 32 0x00 0x10 :: [] := by decide

theorem witness_step_latches :
    (facing (loaded block hi) (.write 32 0x00 0x18)).status.busy = false ∧ decode 0x18 = .ok (.encode true) ∧
    executes (.encode true) = true ∧
    (facing (loaded block hi) (.write 32 0x00 0x18)).inbox = .write 32 0x00 0x18 :: [] := by decide

theorem witness_step_runs_latched :
    (accepted block (.encode true) hi).status.busy = true ∧
    (accepted block (.encode true) hi).latchOp = opcodeOf (.encode true) ∧
    (accepted block (.encode true) hi).latchDiag = diagOf (.encode true) ∧
    (accepted block (.encode true) hi).inbox = [] ∧
    (facing (accepted block (.encode true) hi) .blockTurn).inbox = .blockTurn :: [] := by decide

theorem witness_ignored_writes :
    (facing (accepted block (.obfb false) hi) (.write 32 0x08 9)).status.busy = true ∧
    (facing (loaded block hi) (.write 32 0x04 9)).inbox = .write 32 0x04 9 :: [] ∧
    (0x04#8 ∈ [0x04#8, 0x0C#8, 0x1C#8, 0x20#8, 0x24#8, 0x28#8]) ∧ 0x2C ≤ (0x2C#8).toNat ∧ 0x2C ≤ (0xFF#8).toNat := by
  decide

theorem witness_narrow_accesses :
    (facing (loaded block hi) (.write 8 0x08 9)).inbox = .write 8 0x08 9 :: [] ∧ 8 ≠ 32 ∧
    (facing (holding block hi) (.read 32 0x1D)).inbox = .read 32 0x1D :: [] ∧ (0x1D#8).toNat % 4 ≠ 0 := by decide

theorem witness_reserved_offsets :
    (0x2C ≤ (0x2C#8).toNat ∧ (0x2C#8).toNat % 4 = 0) ∧ (0x2C ≤ (0xFC#8).toNat ∧ (0xFC#8).toNat % 4 = 0) ∧
    (facing (loaded block hi) (.read 32 0xFC)).inbox = .read 32 0xFC :: [] ∧
    (facing (loaded block hi) (.write 32 0x2C 7)).inbox = .write 32 0x2C 7 :: [] := by decide

theorem witness_plain_reads :
    (accepted block (.encode true) hi).cmd.toNat = 0x18 ∧ statusNumber (accepted block (.encode true) hi).status = 0x801 ∧
    (loaded block hi).inLen.toNat = 2 ∧ (holding block hello).outLen.toNat = 5 ∧
    (facing (loaded block hi) (.read 32 0x04)).inbox = .read 32 0x04 :: [] := by decide

theorem witness_identification :
    (facing (loaded block hi) (.read 32 0x28)).inbox = .read 32 0x28 :: [] ∧
    (facing (loaded block hi) (.write 32 0x24 1)).inbox = .write 32 0x24 1 :: [] ∧
    (0x24#8 ∈ [0x20#8, 0x24#8, 0x28#8]) := by decide

theorem witness_idle_writes :
    (facing (loaded block hi) (.write 32 0x08 0xFFFFFFFF)).status.busy = false ∧
    (facing (loaded block hi) (.write 32 0x08 0xFFFFFFFF)).inbox = .write 32 0x08 0xFFFFFFFF :: [] := by decide

theorem witness_in_data :
    (facing { loaded block hi with inPtr := 63 } (.write 32 0x14 7)).inbox = .write 32 0x14 7 :: [] ∧
    { loaded block hi with inPtr := 63 }.status.busy = false ∧
    { loaded block hi with inPtr := 63 }.inPtr.toNat < block.maxLen.toNat ∧
    block.maxLen.toNat ≤ { loaded block hi with inPtr := 64 }.inPtr.toNat ∧
    (accepted block (.obfb false) hi).status.busy = true := by decide

theorem witness_out_data :
    (facing { holding block hello with outPtr := 4 } (.read 32 0x1C)).inbox = .read 32 0x1C :: [] ∧
    { holding block hello with outPtr := 4 }.status.busy = false ∧ (4#32).toNat < (holding block hello).outLen.toNat ∧
    (holding block hello).outBuf.read? (4#32).toNat = some 0x6F ∧
    (holding block hello).outLen.toNat ≤ (5#32).toNat := by decide

theorem witness_reset : (facing (accepted block (.encode true) hi) .reset).inbox = .reset :: [] := rfl

theorem witness_obfuscators :
    HasInput (loaded block hello) hello ∧ 1 < hello.length ∧ hello[hello.length - 1 - 1]? = some 0x6C ∧
    hello[0]? = some 0x68 ∧ { loaded block hello with inLen := 65 }.hw.maxLen.toNat < (65#32).toNat :=
  ⟨loaded_hasInput (by decide), by decide, by decide, by decide, by decide⟩

theorem witness_frame :
    (HasInput (loaded (smallBlock 8) [1, 2]) [1, 2] ∧
      4 + ((smallBlock 8).codec.compress [1, 2]).length ≤ (smallBlock 8).maxLen.toNat) ∧
    (HasInput (loaded (smallBlock 8) [1, 2, 3]) [1, 2, 3] ∧
      (smallBlock 8).maxLen.toNat < 4 + ((smallBlock 8).codec.compress [1, 2, 3]).length) :=
  ⟨⟨loaded_hasInput (by decide), by decide⟩, loaded_hasInput (by decide), by decide⟩

theorem witness_unframe :
    (HasInput (loaded block [0, 0, 0, 2, 0x68, 0x69, 0xFF, 0x00]) [0, 0, 0, 2, 0x68, 0x69, 0xFF, 0x00] ∧
      block.codec.inflate [0x68, 0x69, 0xFF, 0x00] = .ok hi 4 ∧ hi.length = 2 ∧ hi.length ≤ block.maxLen.toNat) ∧
    (HasInput (loaded { block with trailing := .ignore } [0, 0, 0, 2, 0x68, 0x69, 0xFF, 0x00, 0xAA])
        [0, 0, 0, 2, 0x68, 0x69, 0xFF, 0x00, 0xAA] ∧
      block.codec.inflate [0x68, 0x69, 0xFF, 0x00, 0xAA] = .ok hi 4) :=
  ⟨⟨loaded_hasInput (by decide), by decide, by decide, by decide⟩, loaded_hasInput (by decide), by decide⟩

theorem witness_unframe_format :
    HasInput (loaded block [0, 0, 0]) [0, 0, 0] ∧
    (HasInput (loaded block [0, 0, 0, 65, 0xFF, 0x00]) [0, 0, 0, 65, 0xFF, 0x00] ∧ block.maxLen.toNat < 65) ∧
    block.codec.inflate [0x68, 0x69, 0xFF, 0x01] = .malformed ∧ block.codec.inflate [0x68, 0x69, 0xFF] = .truncated ∧
    (block.codec.inflate [0xFF, 0x00, 0xAA] = .ok [] 2 ∧ 2 < [0xFF, 0x00, 0xAA].length ∧ block.trailing = .reject) ∧
    ([] : Buf).length ≠ 1 :=
  ⟨loaded_hasInput (by decide), ⟨loaded_hasInput (by decide), by decide⟩, by decide, by decide, by decide, by decide⟩

theorem witness_aeadEnc :
    (HasInput (loaded (smallBlock 18) hi) hi ∧ hi.length + 16 ≤ (smallBlock 18).maxLen.toNat) ∧
    (HasInput (loaded (smallBlock 17) hi) hi ∧ (smallBlock 17).maxLen.toNat < hi.length + 16) :=
  ⟨⟨loaded_hasInput (by decide), by decide⟩, loaded_hasInput (by decide), by decide⟩

theorem witness_aeadDec :
    (HasInput (loaded block (sealedHi.take 15)) (sealedHi.take 15) ∧ (sealedHi.take 15).length < 16) ∧
    (HasInput (loaded block (sealedHi.take 16)) (sealedHi.take 16) ∧ 16 ≤ (sealedHi.take 16).length ∧
      block.cipher.openBytes (Vector.replicate 16 0x89) (Vector.replicate 16 0x10) [] (sealedHi.take 16) = none) ∧
    (HasInput (loaded block sealedHi) sealedHi ∧ 16 ≤ sealedHi.length ∧
      block.cipher.openBytes (Vector.replicate 16 0x89) (Vector.replicate 16 0x10) [] sealedHi = some hi) :=
  ⟨⟨loaded_hasInput (by decide), by decide⟩, ⟨loaded_hasInput (by decide), by decide, by decide⟩,
    loaded_hasInput (by decide), by decide, by decide⟩

theorem witness_tamper :
    Tamper block ∧ HasInput (loaded block sealedHi) sealedHi ∧ 16 ≤ sealedHi.length ∧
    stubSeal hi = sealedHi := by
  refine ⟨fun c _ h => ?_, loaded_hasInput (by decide), by decide, by decide⟩
  exact if_neg (h ((c.take (c.length - tagLen)).map (· ^^^ 0xA5)))

theorem witness_encode :
    (HasInput (loaded (smallBlock 24) hi) hi ∧ (smallBlock 24).layering = .aOuter ∧
      20 + ((smallBlock 24).codec.compress hi).length ≤ (smallBlock 24).maxLen.toNat) ∧
    (HasInput (loaded { block with layering := .aInner } hi) hi ∧
      20 + (block.codec.compress hi).length ≤ block.maxLen.toNat) :=
  ⟨⟨loaded_hasInput (by decide), rfl, by decide⟩, loaded_hasInput (by decide), by decide⟩

theorem witness_encode_capacity :
    (HasInput (loaded (smallBlock 7) hi) hi ∧
      (smallBlock 7).maxLen.toNat < 4 + ((smallBlock 7).codec.compress hi).length) ∧
    (HasInput (loaded (smallBlock 23) hi) hi ∧
      4 + ((smallBlock 23).codec.compress hi).length ≤ (smallBlock 23).maxLen.toNat ∧
      (smallBlock 23).maxLen.toNat < 20 + ((smallBlock 23).codec.compress hi).length) :=
  ⟨⟨loaded_hasInput (by decide), by decide⟩, loaded_hasInput (by decide), by decide, by decide⟩

theorem witness_decode :
    HasInput (loaded block encodedEmpty) encodedEmpty ∧ 16 ≤ encodedEmpty.length ∧
    block.cipher.openBytes block.key block.iv [] (decodeStage1 block.layering encodedEmpty) =
      some [0x06, 0x05, 0x04, 0x03, 0xFD, 0x01] ∧
    decodeStage3 block.layering [0x06, 0x05, 0x04, 0x03, 0xFD, 0x01] = [0x00, 0x00, 0x00, 0x00, 0xFF, 0x00] ∧
    block.codec.inflate [0xFF, 0x00] = .ok [] 2 ∧ ([] : Buf).length = unbe32 [0x00, 0x00, 0x00, 0x00] :=
  ⟨loaded_hasInput (by decide), by decide, by decide, by decide, by decide, by decide⟩

/-- PKT bytes under `A_OUTER` whose recovered frame is `f`. -/
def artifactOf (f : Buf) : Buf := obfaInv (stubSeal (obfb f))

/-- Every row of R181 at the edge of its range: 15 and 16 input bytes, a frame of 3, a prefix of 65, a malformed and a
truncated stream, a decoded length one off the prefix, one trailing byte (which `IGNORE` accepts), and success. -/
theorem witness_decode_outcomes :
    decodeOutcome block (encodedEmpty.take 15) = (.format, 2) ∧
    decodeOutcome block (encodedEmpty.take 16) = (.auth, 2) ∧
    decodeOutcome block (artifactOf [0, 0, 0]) = (.format, 4) ∧
    decodeOutcome block (artifactOf [0, 0, 0, 65, 0xFF, 0x00]) = (.format, 4) ∧
    decodeOutcome block (artifactOf [0, 0, 0, 2, 0x68, 0x69, 0xFF, 0x01]) = (.format, 4) ∧
    decodeOutcome block (artifactOf [0, 0, 0, 2, 0x68, 0x69]) = (.format, 4) ∧
    decodeOutcome block (artifactOf [0, 0, 0, 1, 0xFF, 0x00]) = (.format, 4) ∧
    decodeOutcome block (artifactOf [0, 0, 0, 0, 0xFF, 0x00, 0xAA]) = (.format, 4) ∧
    decodeOutcome { block with trailing := .ignore } (artifactOf [0, 0, 0, 0, 0xFF, 0x00, 0xAA]) = (.none, 0) ∧
    decodeOutcome block encodedEmpty = (.none, 0) := by decide

/-- Those inputs as states; and each is an input of its row: the stream malformed, truncated, or of that length. -/
theorem witness_decode_outcome_inputs :
    HasInput (loaded block (encodedEmpty.take 15)) (encodedEmpty.take 15) ∧
    HasInput (loaded block (encodedEmpty.take 16)) (encodedEmpty.take 16) ∧
    HasInput (loaded block (artifactOf [0, 0, 0, 65, 0xFF, 0x00])) (artifactOf [0, 0, 0, 65, 0xFF, 0x00]) ∧
    HasInput (loaded block (artifactOf [0, 0, 0, 2, 0x68, 0x69, 0xFF, 0x01]))
      (artifactOf [0, 0, 0, 2, 0x68, 0x69, 0xFF, 0x01]) ∧
    block.codec.inflate [0x68, 0x69, 0xFF, 0x01] = .malformed ∧ block.codec.inflate [0x68, 0x69] = .truncated ∧
    block.codec.inflate [0xFF, 0x00, 0xAA] = .ok [] 2 ∧ block.codec.inflate [0xFF, 0x00] = .ok [] 2 :=
  ⟨loaded_hasInput (by decide), loaded_hasInput (by decide), loaded_hasInput (by decide),
    loaded_hasInput (by decide), by decide, by decide, by decide, by decide⟩

/-- A DECODE that fails at stage 2, by length and by tag, and at stage 4, with a frame of 3 bytes. -/
theorem witness_decode_fails :
    (HasInput (loaded block (encodedEmpty.take 15)) (encodedEmpty.take 15) ∧ (encodedEmpty.take 15).length < 16) ∧
    (HasInput (loaded block (encodedEmpty.take 16)) (encodedEmpty.take 16) ∧ 16 ≤ (encodedEmpty.take 16).length ∧
      block.cipher.openBytes block.key block.iv [] (decodeStage1 block.layering (encodedEmpty.take 16)) = none) ∧
    (HasInput (loaded block (artifactOf [0, 0, 0])) (artifactOf [0, 0, 0]) ∧ 16 ≤ (artifactOf [0, 0, 0]).length ∧
      block.cipher.openBytes block.key block.iv [] (decodeStage1 block.layering (artifactOf [0, 0, 0])) =
        some (obfb [0, 0, 0]) ∧
      decodeStage3 block.layering (obfb [0, 0, 0]) = [0, 0, 0] ∧ frameOutcome block [0, 0, 0] = (.format, 4)) :=
  ⟨⟨loaded_hasInput (by decide), by decide⟩, ⟨loaded_hasInput (by decide), by decide, by decide⟩,
    loaded_hasInput (by decide), by decide, by decide, by decide, by decide⟩

theorem witness_oversized :
    executes (.frame true) = true ∧
    { loaded block hi with inLen := 65 }.hw.maxLen.toNat < { loaded block hi with inLen := 65 }.inLen.toNat := by decide

theorem witness_unwritten :
    executes (.unframe false) = true ∧
    { loaded block hi with inLen := 64 }.inLen.toNat ≤ { loaded block hi with inLen := 64 }.hw.maxLen.toNat ∧
    2 < { loaded block hi with inLen := 64 }.inLen.toNat ∧ (loaded block hi).inBuf.read? 2 = none := by decide

theorem witness_error_completion :
    executes (.aeadDec false) = true ∧ (accepted block (.aeadDec false) hi).status.err = .none ∧
    exec (.aeadDec false) (accepted block (.aeadDec false) hi) =
      .next (complete (.err .format 0) (accepted block (.aeadDec false) hi)) ∧
    (complete (.err .format 0) (accepted block (.aeadDec false) hi)).status.err ≠ .none :=
  ⟨rfl, rfl, rfl, by decide⟩

theorem witness_diag : opcodeOf (.decode true) = opcodeOf (.decode false) ∧ diagOf (.decode true) ≠ diagOf (.decode false) :=
  by decide

/-- The same input in two states that differ in what the last command left. -/
theorem witness_same_input :
    executes (.encode true) = true ∧ HasInput (loaded block hi) hi ∧
    HasInput { loaded block hi with outBuf := [(0, 7)], outLen := 1, work := [7], inPtr := 9 } hi :=
  ⟨rfl, loaded_hasInput (by decide), loaded_hasInput (p := block) (x := hi) (by decide)⟩

theorem witness_laws :
    hello ≠ [] ∧ hello[2]? = some 0x6C ∧
    hi.length ≤ (smallBlock 24).maxLen.toNat ∧ 4 + ((smallBlock 24).codec.compress hi).length ≤ 24 ∧
    20 + ((smallBlock 24).codec.compress hi).length ≤ (smallBlock 24).maxLen.toNat ∧
    hi.length + 16 ≤ (smallBlock 18).maxLen.toNat ∧ 20 + ((smallBlock 22).codec.compress []).length ≤ 22 ∧
    4294967295 < 4294967296 ∧ 4294967295 ≠ hi.length := by decide

theorem witness_pkt_layout :
    encodeBytes block [] = .ok encodedEmpty ∧ block.layering = .aOuter ∧
    (∃ y, encodeBytes { block with layering := .aInner } [] = .ok y) := ⟨by decide, rfl, _, rfl⟩

/-- ENCODE of the empty input, as a state: the statement about moving the output to the input starts here. -/
theorem witness_encode_move :
    HasInput (loaded block []) [] ∧
    exec (.encode false) (loaded block []) =
      .next (complete (.ok encodedEmpty) { loaded block [] with stage := 4, work := encodedEmpty }) ∧
    Succeeded (loaded block [])
      (complete (.ok encodedEmpty) { loaded block [] with stage := 4, work := encodedEmpty }) encodedEmpty ∧
    HasInput (loaded block encodedEmpty) encodedEmpty :=
  ⟨loaded_hasInput (by decide), rfl, complete_succeeded (by decide) rfl, loaded_hasInput (by decide)⟩

/-- A busy state with the invariant. -/
theorem witness_invariant :
    Invariant (accepted block (.obfb false) []) ∧ (accepted block (.obfb false) []).status.busy = true ∧
    goesOn (step (accepted block (.obfb false) [])) = true := by
  refine ⟨?_, rfl, by decide⟩
  exact
    { params := by decide
      inWf := List.Pairwise.nil
      outWf := List.Pairwise.nil
      inBound := fun c hc => nomatch hc
      outBound := fun c hc => nomatch hc
      workBound := by decide
      outLenBound := by decide
      outWritten := fun i hi => absurd hi (by simp [accepted])
      notBoth := by decide
      stageZero := rfl
      lastOp := by decide
      busyClear := fun _ => by decide
      busyLatch := fun _ => ⟨.obfb false, by decide⟩
      stageError := by decide
      errorNoOutput := by decide
      tapStages := fun e he => nomatch he
      mfOnce := List.nodup_nil }

theorem witness_no_reset :
    (∀ rest, (facing (loaded block hi) (.write 32 0x08 1)).inbox ≠ .reset :: rest) ∧
    (facing (loaded block hi) (.write 32 0x08 1)).inBuf.read? 1 ≠ none ∧
    goesOn (step (facing (loaded block hi) (.write 32 0x08 1))) = true := by
  refine ⟨fun rest h => ?_, by decide, by decide⟩
  simp [facing] at h

/-- A step that changes a cell of `OUT`. -/
theorem witness_output_changes :
    step (accepted block (.obfb false) [0]) =
      .next (complete (.ok [1]) (accepted block (.obfb false) [0])) ∧
    (complete (.ok [1]) (accepted block (.obfb false) [0])).outBuf.read? 0 ≠
      (accepted block (.obfb false) [0]).outBuf.read? 0 := ⟨rfl, by decide⟩

theorem witness_schedule :
    (accepted block (.obfb false) [0]).status.busy = true ∧
    (∀ e ∈ [Event.read 32 0x04, .write 32 0x08 0], hostAccess e = true) ∧
    step (facing (accepted block (.obfb false) [0]) .blockTurn) =
      .next (complete (.ok [1]) (accepted block (.obfb false) [0])) := ⟨rfl, by decide, rfl⟩

theorem witness_looks_alike :
    LooksAlike (loaded block hi) { loaded block hi with work := [7], latchOp := 3, outBuf := [(0, 7)] } ∧
    Host.Core.run Sys2Proof.core 1 (loaded block hi) = .next (loaded block hi) :=
  ⟨⟨rfl, rfl, rfl, rfl, rfl, rfl, rfl, rfl, rfl, rfl, rfl, rfl, rfl, fun h => (by cases h),
    fun i hi => absurd hi (by simp [loaded, State.powerUp])⟩, rfl⟩

theorem witness_command_ends :
    (facing (loaded block hi) (.write 32 0x00 (encode (.encode false)))).status.busy = false ∧
    HasInput (facing (loaded block hi) (.write 32 0x00 (encode (.encode false)))) hi ∧
    block.maxLen.toNat < { loaded block hi with inLen := 65 }.inLen.toNat :=
  ⟨rfl, loaded_hasInput (p := block) (x := hi) (by decide), by decide⟩

/-- `LOAD` of exactly `MAX_LEN` bytes. -/
theorem witness_load :
    (State.powerUp (smallBlock 2)).status.busy = false ∧ hi.length ≤ (smallBlock 2).maxLen.toNat ∧
    pseudoLoad hi =
      [.wr .inPtr 0, .wr .inData (hi[0].setWidth 32), .wr .inData (hi[1].setWidth 32), .wr .inLen 2] := by decide

theorem witness_unload :
    (holding block hi).status.busy = false ∧ (holding block hi).outLen.toNat = hi.length ∧
    (∀ i, i < hi.length → (holding block hi).outBuf.read? i = hi[i]?) := by decide

theorem witness_reserved_register : 0x2C ≤ (0x2C#8).toNat ∧ 0x2C ≤ (0xFF#8).toNat := by decide

theorem witness_window : (255 < 256 ∨ 256 + 256 ≤ 255) ∧ (511 + 1 < 256 ∨ 256 + 256 ≤ 511 + 1) := by decide

end Sys2Proof.Tests
end

section
/-! The open parameters meet their constraints (spec/00_scope.md R7), and the values of R39 and R230 have the
invariant: the base case of every argument from reset on. -/

namespace Sys2Proof

/-! ### The constraints of R7 and R50 on the open parameters -/

theorem Params.wf_iff (p : Params) :
    p.wf = true ↔ 1 ≤ p.maxLen.toNat ∧ p.keyByte ≠ p.ivByte ∧ p.regBase % 4 = 0 := by
  simp [Params.wf, and_assoc]

theorem Config.one_le_maxLen : 1 ≤ Config.maxLen.toNat := by
  unfold Config.maxLen
  split
  case isTrue => decide
  case isFalse chosen => bv_omega

theorem Config.keyByte_ne_ivByte : Config.keyByte ≠ Config.ivByte := by
  unfold Config.ivByte
  split
  case isTrue => bv_omega
  case isFalse chosen => exact Ne.symm chosen

theorem Config.params_wf : Config.params.wf = true :=
  (Params.wf_iff _).mpr ⟨Config.one_le_maxLen, Config.keyByte_ne_ivByte, Nat.mul_mod_right 4 _⟩

end Sys2Proof

namespace Sys2Proof.Safety

open Sys2Proof.Machine

/-! ### The state after a reset -/

/-- R230: a reset keeps only the parameters and `MF` of the block, so it needs only their two fields of the
invariant. Every other field is about an empty buffer, an idle block or a zero register. -/
theorem platformReset_invariant {s : State} (hparams : s.hw.wf = true) (hmf : s.mf.Nodup) :
    Invariant (platformReset s) where
  params := hparams
  inWf := List.Pairwise.nil
  outWf := List.Pairwise.nil
  inBound := List.forall_mem_nil _
  outBound := List.forall_mem_nil _
  workBound := Nat.zero_le _
  outLenBound := Nat.zero_le _
  outWritten := fun i hi => absurd hi (Nat.not_lt_zero i)
  notBoth := fun ⟨busy, _⟩ => Bool.false_ne_true busy
  stageZero := rfl
  lastOp := rfl
  busyClear := fun busy => absurd busy Bool.false_ne_true
  busyLatch := fun busy => absurd busy Bool.false_ne_true
  stageError := fun failed => absurd rfl failed
  errorNoOutput := fun _ => rfl
  tapStages := List.forall_mem_nil _
  mfOnce := hmf

/-- R39: power-up is the reset of a block whose `MF` is empty. -/
theorem powerUp_invariant {p : Params} (hp : p.wf = true) : Invariant (State.powerUp p) :=
  platformReset_invariant (s := State.powerUp p) hp List.nodup_nil

/-- Settles O49: the open parameters meet R7, and power-up with any such parameters has the invariant. -/
theorem powerUpStateHasTheInvariant : Obligations.PowerUpStateHasTheInvariant :=
  powerUp_invariant Config.params_wf

end Sys2Proof.Safety
end

section
/-! SUPPORT. What a command leaves behind as a function of the parameters and its input, and everything a step can
do, said once (spec/20_memory.md R58; spec/43_sequencer.md R160 to R163). -/

namespace Sys2Proof.Machine

open Sys2Proof.Safety

/-! ### The stage loop in closed form -/

/-- The outputs of the stages that succeed, up to the first failure (R174). -/
def stageOutputs (p : Params) : List (StageNo × StageFn) → Buf → List (StageNo × Buf)
  | [], _ => []
  | (n, f) :: rest, b =>
    match applyStage p f b with
    | .err _ _ => []
    | .ok y => (n, y) :: stageOutputs p rest y

/-- R176: the loop adds one tap per stage that succeeded, and none with diagnostics off. -/
theorem runStages_obs_eq (op : PipeOp) (d : Bool) (l : List (StageNo × StageFn)) (b : Buf) (s : State) :
    (runStages op d l b s).1.obs = s.obs ++ taps op d (stageOutputs s.hw l b) := by
  induction l generalizing b s with
  | nil => cases d <;> simp [runStages, stageOutputs, taps]
  | cons a l ih =>
    obtain ⟨n, f⟩ := a
    cases hr : applyStage s.hw f b with
    | err k m => cases d <;> simp [runStages, stageOutputs, hr, taps]
    | ok y => cases d <;> simp [runStages, stageOutputs, hr, ih, taps]

/-- R34: `W` ends with the last output, or as it was if no stage succeeded. -/
theorem runStages_work_eq (op : PipeOp) (d : Bool) (l : List (StageNo × StageFn)) (b : Buf) (s : State) :
    (runStages op d l b s).1.work = ((stageOutputs s.hw l b).map Prod.snd).getLastD s.work := by
  induction l generalizing b s with
  | nil => rfl
  | cons a l ih =>
    obtain ⟨n, f⟩ := a
    cases hr : applyStage s.hw f b with
    | err k m => simp [runStages, stageOutputs, hr]
    | ok y =>
      simp only [runStages, stageOutputs, hr, ih, stageDone_hw, stageDone_work, List.map_cons, List.getLastD_cons]

/-! ### A command in closed form -/

/-- The result of a command on the input `x`, R166. -/
def commandResult (p : Params) (x : Buf) : Instr → Result
  | .nop _ => .ok []
  | .obfaFwd _ => .ok (obfaFwd x)
  | .obfaInv _ => .ok (obfaInv x)
  | .obfb _ => .ok (obfb x)
  | .frame _ => frame p x
  | .unframe _ => unframe p x
  | .aeadEnc _ => aeadEnc p x
  | .aeadDec _ => aeadDec p x
  | .encode _ => encodeBytes p x
  | .decode _ => decodeBytes p x

/-- The outputs of a command's pipeline stages; a stage command on its own has none (R166). -/
def commandOutputs (p : Params) (x : Buf) : Instr → List (StageNo × Buf)
  | .encode _ => stageOutputs p (encodeStages p.layering) x
  | .decode _ => stageOutputs p (decodeStages p.layering) x
  | _ => []

/-- The operation a command's taps name; only ENCODE and DECODE have any. -/
def pipeOpOf : Instr → PipeOp
  | .encode _ => .encode
  | _ => .decode

theorem commandCore_result_eq (i : Instr) (x : Buf) (s : State) :
    (commandCore i x s).2 = commandResult s.hw x i := by
  cases i with
  | encode d => exact runStages_result ..
  | decode d => exact runStages_result ..
  | _ => rfl

theorem commandCore_obs_eq (i : Instr) (x : Buf) (s : State) :
    (commandCore i x s).1.obs = s.obs ++ taps (pipeOpOf i) (diagOf i) (commandOutputs s.hw x i) := by
  cases i with
  | encode d => exact runStages_obs_eq ..
  | decode d => exact runStages_obs_eq ..
  | _ => simp [commandCore, commandOutputs, taps]

theorem commandCore_work_eq (i : Instr) (x : Buf) (s : State) :
    (commandCore i x s).1.work = ((commandOutputs s.hw x i).map Prod.snd).getLastD s.work := by
  cases i with
  | encode d => exact runStages_work_eq ..
  | decode d => exact runStages_work_eq ..
  | _ => rfl

/-- The state in which a command with the input `x` ends (R162, R163): its completion, the taps and `W`. -/
def finishCommand (i : Instr) (x : Buf) (s : State) : State :=
  { complete (commandResult s.hw x i) s with
    work := ((commandOutputs s.hw x i).map Prod.snd).getLastD s.work
    obs := s.obs ++ taps (pipeOpOf i) (diagOf i) (commandOutputs s.hw x i) }

/-- Completion sets `STAGE` itself, so it sees of the stage loop's state only what `finishCommand` names. -/
theorem complete_commandCore (i : Instr) (x : Buf) (s : State) :
    complete (commandCore i x s).2 (commandCore i x s).1 = finishCommand i x s := by
  rw [finishCommand, ← commandCore_result_eq, ← commandCore_obs_eq, ← commandCore_work_eq]
  cases (commandCore i x s).2 <;> rw [commandCore_state i x s] <;> rfl

/-! ### The execution of a command -/

theorem exec_nop (d : Bool) (s : State) : exec (.nop d) s = .next (completeNop s) := rfl

theorem exec_capacity {i : Instr} {s : State} (hi : executes i = true) (h : s.hw.maxLen.toNat < s.inLen.toNat) :
    exec i s = .next (complete (.err .capacity 0) s) := by
  rw [exec_eq_execute hi, execute_capacity _ h]

theorem exec_unwritten {i : Instr} {s : State} (hi : executes i = true) (hle : s.inLen.toNat ≤ s.hw.maxLen.toNat)
    (h : ∃ a, a < s.inLen.toNat ∧ s.inBuf.read? a = none) :
    exec i s = .next (recordModelFault .unwrittenRead s) := by
  rw [exec_eq_execute hi, execute_unwritten _ hle h]

theorem exec_input {i : Instr} {s : State} {x : Buf} (hi : executes i = true) (hx : HasInput s x) :
    exec i s = .next (finishCommand i x s) := by
  rw [exec_eq_execute hi, execute_input _ hx, complete_commandCore]

/-- Only NOP has no execution step. -/
theorem executes_eq_false {i : Instr} (h : executes i = false) : ∃ d, i = .nop d := by
  cases i with
  | nop d => exact ⟨d, rfl⟩
  | _ => cases h

/-- How a command that starts in `s` leaves the block. -/
inductive ExecTo (i : Instr) (s : State) : State → Prop where
  | nop (d : Bool) (hi : i = .nop d) : ExecTo i s (completeNop s)
  | capacity (hi : executes i = true) (h : s.hw.maxLen.toNat < s.inLen.toNat) :
      ExecTo i s (complete (.err .capacity 0) s)
  | unwritten (hi : executes i = true) (hle : s.inLen.toNat ≤ s.hw.maxLen.toNat)
      (h : ∃ a, a < s.inLen.toNat ∧ s.inBuf.read? a = none) : ExecTo i s (recordModelFault .unwrittenRead s)
  | finished (x : Buf) (hi : executes i = true) (hx : HasInput s x) : ExecTo i s (finishCommand i x s)

/-- Every command answers a next state, one of the four of `ExecTo`. -/
theorem exec_answers (i : Instr) (s : State) : ∃ t, exec i s = .next t ∧ ExecTo i s t := by
  cases hi : executes i with
  | false =>
    obtain ⟨d, rfl⟩ := executes_eq_false hi
    exact ⟨_, exec_nop d s, .nop d rfl⟩
  | true =>
    rcases execute_cases (commandCore i) s with ⟨h, -⟩ | ⟨hle, h, -⟩ | ⟨x, hx, -⟩
    · exact ⟨_, exec_capacity hi h, .capacity hi h⟩
    · exact ⟨_, exec_unwritten hi hle h, .unwritten hi hle h⟩
    · exact ⟨_, exec_input hi hx, .finished x hi hx⟩

theorem execTo_of_exec {i : Instr} {s t : State} (h : exec i s = .next t) : ExecTo i s t := by
  obtain ⟨u, hu, hto⟩ := exec_answers i s
  cases hu.symm.trans h
  exact hto

/-! ### One step -/

/-- `s` without the event that its next step takes. -/
def State.popEvent (s : State) : State := { s with inbox := s.inbox.tail }

/-- Everything one step can do (R58). -/
inductive StepTo (s : State) : State → Prop where
  | nothing : StepTo s s.popEvent
  | illegal (v : Word) (idle : s.status.busy = false) (hv : ∃ e, decode v = .error e) :
      StepTo s (completeIllegal (acceptWord v s.popEvent))
  | nop (v : Word) (idle : s.status.busy = false) : StepTo s (completeNop (acceptWord v s.popEvent))
  | latch (v : Word) (i : Instr) (idle : s.status.busy = false) (hv : decode v = .ok i) (hi : executes i = true) :
      StepTo s (latchCommand v (acceptWord v s.popEvent))
  | register (r : Register) (v : Word) (idle : s.status.busy = false) : StepTo s (writeRegister r v s.popEvent)
  | read (width : Nat) (offset : BitVec 8) :
      StepTo s { (hostRead width offset s.popEvent).2 with
        replies := s.replies ++ [(hostRead width offset s.popEvent).1] }
  | turn (i : Instr) {t : State} (busy : s.status.busy = true) (hi : latchedCommand s = some i)
      (ht : ExecTo i s.popEvent t) : StepTo s t
  | reset (rest : List Event) (h : s.inbox = .reset :: rest) : StepTo s (platformReset s.popEvent)

/-- The block's turn, whether the schedule gives it or the host is silent. -/
theorem stepTo_of_blockTurn {s t : State} (h : blockTurn s.popEvent = .next t) : StepTo s t := by
  rcases blockTurn_cases s.popEvent with ⟨i, busy, hi, hturn⟩ | hturn
  · exact .turn i busy hi (execTo_of_exec (hturn.symm.trans h))
  · cases hturn.symm.trans h
    exact .nothing

theorem stepTo_of_hostWrite {s t : State} {width : Nat} {offset : BitVec 8} {v : Word}
    (h : hostWrite width offset v s.popEvent = .next t) : StepTo s t := by
  rcases hostWrite_cases width offset v s.popEvent with hw | ⟨idle, hw⟩ | ⟨idle, -, hw⟩
  · cases hw.symm.trans h
    exact .nothing
  · rcases acceptCommand_cases v s.popEvent with ⟨hv, ha⟩ | ⟨d, -, ha⟩ | ⟨i, hv, hi, ha⟩ <;>
      cases (hw.trans ha).symm.trans h
    · exact .illegal v idle hv
    · exact .nop v idle
    · exact .latch v i idle hv hi
  · cases hw.symm.trans h
    exact .register _ v idle

/-- The inversion lemma of the step: the cases of `StepTo` are all there are. -/
theorem step_cases {s t : State} (h : step s = .next t) : StepTo s t := by
  cases hs : s.inbox with
  | nil =>
    have hpop : s.popEvent = s := by
      cases s
      cases hs
      rfl
    rw [step_silent hs, ← hpop] at h
    exact stepTo_of_blockTurn h
  | cons e rest =>
    have hpop : { s with inbox := rest } = s.popEvent := by simp [State.popEvent, hs]
    rw [step_event hs, hpop] at h
    cases e with
    | write width offset v => exact stepTo_of_hostWrite h
    | read width offset =>
      cases h
      exact .read width offset
    | blockTurn => exact stepTo_of_blockTurn h
    | reset =>
      cases h
      exact .reset rest hs

end Sys2Proof.Machine
end

section
/-! The invariant of the block, operation by operation and then for every step. -/

namespace Sys2Proof

/-- What the decoder accepts is the command of its `OP` and `DIAG` fields, R76. -/
theorem decode_eq_ok {v : Word} {i : Instr} :
    decode v = .ok i ↔ rsvField v = 0 ∧ commandOf (opField v) (diagField v) = some i := by
  unfold decode
  split
  case isTrue reserved => exact ⟨nofun, fun ⟨clear, _⟩ => absurd clear reserved⟩
  case isFalse clear =>
    rw [not_not] at clear
    cases commandOf (opField v) (diagField v) <;> simp [clear]

end Sys2Proof

namespace Sys2Proof.Machine

/-! ### The `IN_DATA` port, R29 -/

theorem writeInData_full {s : State} (h : s.hw.maxLen.toNat ≤ s.inPtr.toNat) (v : Word) : writeInData v s = s :=
  if_neg (not_lt.mpr h)

theorem writeInData_store {s : State} (h : s.inPtr.toNat < s.hw.maxLen.toNat) (v : Word) :
    writeInData v s =
      { s with inBuf := s.inBuf.write s.inPtr.toNat (v.extractLsb' 0 8), inPtr := s.inPtr + 1 } := if_pos h

end Sys2Proof.Machine

namespace Sys2Proof.Safety

open Sys2Proof.Machine

/-! ### The host's own lists and its register accesses -/

/-- The invariant is about the block alone: it does not see the events to come or the values read. -/
theorem Invariant.hostLists {s : State} (h : Invariant s) (es : List Event) (vs : List Word) :
    Invariant { s with inbox := es, replies := vs } := { h with }

theorem Invariant.popEvent {s : State} (h : Invariant s) : Invariant s.popEvent := h.hostLists ..

/-- A plain write leaves `IN` alone or writes one cell of it below `MAX_LEN` (R29). -/
theorem writeRegister_inBuf (r : Register) (v : Word) (s : State) :
    (writeRegister r v s).inBuf = s.inBuf ∨
    (s.inPtr.toNat < s.hw.maxLen.toNat ∧
      (writeRegister r v s).inBuf = s.inBuf.write s.inPtr.toNat (v.extractLsb' 0 8)) := by
  cases r with
  | inData =>
    by_cases hp : s.inPtr < s.hw.maxLen
    · exact .inr ⟨hp, congrArg State.inBuf (writeInData_store hp v)⟩
    · exact .inl (congrArg State.inBuf (writeInData_full (not_lt.mp hp) v))
  | _ => exact .inl rfl

theorem writeRegister_inWf {r : Register} {v : Word} {s : State} (h : s.inBuf.wf) :
    (writeRegister r v s).inBuf.wf := by
  rcases writeRegister_inBuf r v s with e | ⟨-, e⟩ <;> rw [e]
  · exact h
  · exact Memory.wf_write h _ _

theorem writeRegister_inBound {r : Register} {v : Word} {s : State}
    (h : ∀ c ∈ s.inBuf, c.1 < s.hw.maxLen.toNat) :
    ∀ c ∈ (writeRegister r v s).inBuf, c.1 < s.hw.maxLen.toNat := by
  rcases writeRegister_inBuf r v s with e | ⟨hp, e⟩ <;> rw [e]
  · exact h
  · intro c hc
    rcases Memory.mem_write hc with rfl | hc
    · exact hp
    · exact h c hc

theorem Invariant.writeRegister {s : State} (h : Invariant s) (idle : s.status.busy = false) (r : Register)
    (v : Word) : Invariant (writeRegister r v s) := by
  have hwf := writeRegister_inWf (r := r) (v := v) h.inWf
  have hbound := writeRegister_inBound (r := r) (v := v) h.inBound
  rw [(writeRegister_frame r v s).1]
  exact
    { h with
      inWf := hwf
      inBound := hbound
      busyClear := fun busy => absurd busy (by simp [idle]) }

/-- R54: a read moves at most `OUT_PTR`, and that only in an idle block. -/
theorem Invariant.hostRead {s : State} (h : Invariant s) (width : Nat) (offset : BitVec 8) :
    Invariant (hostRead width offset s).2 := by
  rcases hostRead_state width offset s with e | ⟨idle, -, e⟩ <;> rw [e]
  · exact h
  · exact { h with busyClear := fun busy => absurd busy (by simp [idle]) }

/-! ### Acceptance -/

/-- R160: acceptance clears `DONE`, `ERR` and `FAIL_STAGE`, and keeps `LAST_OP` and `CMD` in step. -/
theorem Invariant.acceptWord {s : State} (h : Invariant s) (idle : s.status.busy = false) (v : Word) :
    Invariant (acceptWord v s) :=
  have not_busy : (Machine.acceptWord v s).status.busy ≠ true := by simp [idle]
  { h with
    notBoth := fun ⟨busy, _⟩ => not_busy busy
    lastOp := rfl
    busyClear := fun busy => absurd busy not_busy
    busyLatch := fun busy => absurd busy not_busy
    stageError := fun failed => absurd rfl failed
    errorNoOutput := fun failed => absurd rfl failed }

theorem Invariant.latchCommand {s : State} (h : Invariant s) (idle : s.status.busy = false) {v : Word} {i : Instr}
    (hv : decode v = .ok i) (hi : executes i = true) : Invariant (latchCommand v (Machine.acceptWord v s)) :=
  { h.acceptWord idle v with
    outLenBound := Nat.zero_le _
    outWritten := fun i hi => absurd hi (Nat.not_lt_zero i)
    notBoth := fun ⟨_, done⟩ => Bool.false_ne_true done
    stageZero := rfl
    busyClear := fun _ => ⟨rfl, rfl, rfl, rfl⟩
    busyLatch := fun _ => ⟨i, hi, hv, (decode_eq_ok.mp hv).2⟩
    errorNoOutput := fun _ => rfl }

/-! ### Completion and execution -/

theorem Invariant.completeNop {s : State} (h : Invariant s) (idle : s.status.busy = false) :
    Invariant (completeNop s) :=
  { h with notBoth := fun ⟨busy, _⟩ => by simp [idle] at busy }

/-- R200: an error leaves nothing readable; only a stage error has a stage. -/
theorem Invariant.takeError {s : State} (h : Invariant s) {c : ErrCode} {n : StageNo}
    (hstage : n ≠ 0 → c ≠ .none ∧ c ≠ .illegal) : Invariant (takeError c n s) :=
  { h with
    outLenBound := Nat.zero_le _
    outWritten := fun i hi => absurd hi (Nat.not_lt_zero i)
    notBoth := fun ⟨busy, _⟩ => Bool.false_ne_true busy
    busyClear := fun busy => absurd busy Bool.false_ne_true
    busyLatch := fun busy => absurd busy Bool.false_ne_true
    stageError := hstage
    errorNoOutput := fun _ => rfl }

theorem errKind_code_ne (k : ErrKind) : k.code ≠ .none ∧ k.code ≠ .illegal := by
  cases k <;> exact ⟨nofun, nofun⟩

/-- R163: a result within `MAX_LEN` is written whole, and nothing beyond it is readable. -/
theorem Invariant.complete_ok {s : State} (h : Invariant s) {y : Buf} (hy : y.length ≤ s.hw.maxLen.toNat) :
    Invariant (complete (.ok y) s) :=
  have outLen_eq : (complete (.ok y) s).outLen.toNat = y.length := by
    have := s.hw.maxLen.isLt
    simp only [complete_ok_outLen, BitVec.toNat_ofNat]
    omega
  { h with
    outWf := Memory.wf_writeBytes h.outWf 0 y
    outBound := fun c hc => by
      rcases Memory.mem_writeBytes hc with ⟨-, hlt⟩ | hc
      · simp only [complete_ok_hw]
        omega
      · exact h.outBound c hc
    outLenBound := outLen_eq.trans_le hy
    outWritten := fun i hi => by
      rw [outLen_eq] at hi
      simp [Memory.read?_writeBytes_zero, hi]
    notBoth := fun ⟨busy, _⟩ => Bool.false_ne_true busy
    stageZero := rfl
    busyClear := fun busy => absurd busy Bool.false_ne_true
    busyLatch := fun busy => absurd busy Bool.false_ne_true
    stageError := fun failed => absurd rfl failed
    errorNoOutput := fun failed => absurd rfl failed }

theorem Invariant.complete_err {s : State} (h : Invariant s) (k : ErrKind) (n : StageNo) :
    Invariant (complete (.err k n) s) :=
  { h.takeError (n := n) fun _ => errKind_code_ne k with stageZero := rfl }

theorem Invariant.recordModelFault {s : State} (h : Invariant s) (r : ModelFault) :
    Invariant (recordModelFault r s) :=
  { h with
    mfOnce := by
      rw [recordModelFault_mf]
      split
      case isTrue => exact h.mfOnce
      case isFalse new => simpa using h.mfOnce.concat new }

/-- R176, R34: what the stage loop leaves in `OBS` and `W` is within the capacity, and so is the result. -/
theorem Invariant.finishCommand {s : State} (h : Invariant s) {x : Buf} (hx : HasInput s x) (i : Instr) :
    Invariant (finishCommand i x s) := by
  obtain ⟨hlen, hle, -⟩ := hx
  have hxs : x.length ≤ s.hw.maxLen.toNat := hlen.trans_le hle
  have hdone : Invariant (complete (commandResult s.hw x i) s) := by
    cases hr : commandResult s.hw x i with
    | ok y => exact h.complete_ok (commandCore_length hxs ((commandCore_result_eq i x s).trans hr))
    | err k n => exact h.complete_err k n
  have hwork := commandCore_work (i := i) hxs h.workBound
  obtain ⟨new, hobs, hnew⟩ := commandCore_obs (i := i) (s := s) hxs
  rw [commandCore_work_eq] at hwork
  rw [commandCore_obs_eq] at hobs
  have params_kept : (complete (commandResult s.hw x i) s).hw = s.hw :=
    (complete_kept _ (inputSideKept_refl s)).hw
  exact
    { hdone with
      workBound := hwork.trans_eq (by rw [← params_kept]; rfl)
      tapStages := by
        intro e he
        rw [show (Machine.finishCommand i x s).hw = s.hw from params_kept]
        have he : e ∈ s.obs ++ new := hobs.subst (motive := (e ∈ ·)) he
        rcases List.mem_append.mp he with he | he
        · exact h.tapStages e he
        · exact hnew e he }

/-- The command of a busy block executes: NOP never waits in the latches. -/
theorem Invariant.latched_executes {s : State} (h : Invariant s) (busy : s.status.busy = true) {i : Instr}
    (hi : latchedCommand s = some i) : executes i = true := by
  obtain ⟨j, hj, -, hlatched⟩ := h.busyLatch busy
  cases hi.symm.trans hlatched
  exact hj

theorem Invariant.execTo {s t : State} {i : Instr} (h : Invariant s) (hi : executes i = true)
    (ht : ExecTo i s t) : Invariant t := by
  cases ht with
  | nop d hnop =>
    subst hnop
    cases hi
  | capacity => exact h.complete_err .capacity 0
  | unwritten => exact h.recordModelFault .unwrittenRead
  | finished x _ hx => exact h.finishCommand hx i

/-! ### Every step -/

/-- Settles O48: each thing a step can do keeps the invariant. -/
theorem everyStepKeepsTheInvariant : Obligations.EveryStepKeepsTheInvariant := by
  intro s t h hstep
  cases step_cases hstep with
  | nothing => exact h.popEvent
  | illegal v idle => exact (h.popEvent.acceptWord idle v).takeError fun failed => absurd rfl failed
  | nop v idle => exact (h.popEvent.acceptWord idle v).completeNop idle
  | latch v i idle hv hi => exact h.popEvent.latchCommand idle hv hi
  | register r v idle => exact h.popEvent.writeRegister idle r v
  | read width offset => exact (h.popEvent.hostRead width offset).hostLists ..
  | turn i busy hi ht => exact h.popEvent.execTo (h.latched_executes busy hi) ht
  | reset => exact platformReset_invariant h.params h.mfOnce

end Sys2Proof.Safety
end

section
/-! Noninterference: two states that a host cannot tell apart stay so, operation by operation and along every run
(spec/10_state.md R34, R39; spec/93_implementation_defined.md U18). -/

namespace Sys2Proof.Safety

open Sys2Proof.Machine

/-! ### Host accesses -/

theorem LooksAlike.hostLists {s t : State} (h : LooksAlike s t) (es : List Event) (vs : List Word) :
    LooksAlike { s with inbox := es, replies := vs } { t with inbox := es, replies := vs } :=
  { h with inbox := rfl, replies := rfl }

theorem LooksAlike.writeRegister {s t : State} (h : LooksAlike s t) (r : Register) (v : Word) :
    LooksAlike (writeRegister r v s) (writeRegister r v t) := by
  cases r with
  | inLen => exact { h with inLen := rfl }
  | inPtr => exact { h with inPtr := rfl }
  | outPtr => exact { h with outPtr := rfl }
  | inData =>
    simp only [Machine.writeRegister, writeInData, h.inPtr, h.hw, h.inBuf]
    split
    · exact { h with hw := rfl, inPtr := rfl, inBuf := rfl }
    · exact h
  | _ => exact h

/-- R31: `OUT_DATA` reads only cells below `OUT_LEN`. -/
theorem LooksAlike.readOutData {s t : State} (h : LooksAlike s t) :
    (readOutData t).1 = (readOutData s).1 ∧ LooksAlike (readOutData s).2 (readOutData t).2 := by
  unfold Machine.readOutData
  rw [h.status, h.outPtr, h.outLen]
  split
  case isTrue readable =>
    refine ⟨?_, { h with status := rfl, outLen := rfl, outPtr := rfl }⟩
    simp only [outByte, h.output _ readable.2]
  case isFalse => exact ⟨rfl, h⟩

theorem LooksAlike.hostRead {s t : State} (h : LooksAlike s t) (width : Nat) (offset : BitVec 8) :
    (hostRead width offset t).1 = (hostRead width offset s).1 ∧
      LooksAlike (hostRead width offset s).2 (hostRead width offset t).2 := by
  unfold Machine.hostRead
  split
  · cases registerAt offset with
    | cmd => exact ⟨h.cmd, h⟩
    | status => exact ⟨congrArg Status.word h.status, h⟩
    | inLen => exact ⟨h.inLen, h⟩
    | outLen => exact ⟨h.outLen, h⟩
    | inPtr => exact ⟨h.inPtr, h⟩
    | outPtr => exact ⟨h.outPtr, h⟩
    | outData => exact h.readOutData
    | capacity => exact ⟨congrArg Params.maxLen h.hw, h⟩
    | config => exact ⟨congrArg configWord h.hw, h⟩
    | _ => exact ⟨rfl, h⟩
  · exact ⟨rfl, h⟩

/-! ### Acceptance and completion -/

theorem LooksAlike.acceptWord {s t : State} (h : LooksAlike s t) (v : Word) :
    LooksAlike (acceptWord v s) (acceptWord v t) :=
  { h with cmd := rfl, status := congrArg (Status.accept (opField v)) h.status }

theorem LooksAlike.latchCommand {s t : State} (h : LooksAlike s t) (v : Word) :
    LooksAlike (latchCommand v s) (latchCommand v t) :=
  { h with
    status := congrArg Status.start h.status
    outLen := rfl
    outPtr := rfl
    stage := rfl
    latches := fun _ => ⟨rfl, rfl⟩
    output := fun i hi => absurd hi (Nat.not_lt_zero i) }

theorem LooksAlike.takeError {s t : State} (h : LooksAlike s t) (c : ErrCode) (n : StageNo) :
    LooksAlike (takeError c n s) (takeError c n t) :=
  { h with
    status := congrArg (Status.fail c n) h.status
    outLen := rfl
    outPtr := rfl
    latches := fun busy => absurd busy Bool.false_ne_true
    output := fun i hi => absurd hi (Nat.not_lt_zero i) }

theorem LooksAlike.completeNop {s t : State} (h : LooksAlike s t) :
    LooksAlike (completeNop s) (completeNop t) :=
  { h with status := congrArg Status.finishNop h.status }

/-- R163: a completion makes readable only cells that it writes. -/
theorem LooksAlike.complete {s t : State} (h : LooksAlike s t) (r : Result) :
    LooksAlike (complete r s) (complete r t) := by
  cases r with
  | err k n => exact { h.takeError k.code n with stage := rfl }
  | ok y =>
    exact
      { h with
        status := congrArg Status.succeed h.status
        outLen := rfl
        outPtr := rfl
        stage := rfl
        latches := fun busy => absurd busy Bool.false_ne_true
        output := fun i hi => by
          have hi : i < y.length := hi.trans_le (Nat.mod_le _ _)
          simp [Memory.read?_writeBytes_zero, hi] }

theorem LooksAlike.recordModelFault {s t : State} (h : LooksAlike s t) (r : ModelFault) :
    LooksAlike (recordModelFault r s) (recordModelFault r t) :=
  { h with mf := by rw [recordModelFault_mf, recordModelFault_mf, h.mf] }

theorem LooksAlike.finishCommand {s t : State} (h : LooksAlike s t) (i : Instr) (x : Buf) :
    LooksAlike (finishCommand i x s) (finishCommand i x t) := by
  unfold Machine.finishCommand
  rw [h.hw, h.obs]
  exact { h.complete (commandResult s.hw x i) with obs := rfl }

/-! ### Steps and runs -/

/-- Both steps answer, and a host cannot tell the answers apart. -/
def AlikeOutcomes (o o' : Host.Outcome State Fault Refusal) : Prop :=
  ∃ s t, o = .next s ∧ o' = .next t ∧ LooksAlike s t

theorem LooksAlike.outcomes {s t : State} (h : LooksAlike s t) : AlikeOutcomes (.next s) (.next t) :=
  ⟨s, t, rfl, rfl, h⟩

theorem LooksAlike.hasInput {s t : State} (h : LooksAlike s t) {x : Buf} (hx : HasInput s x) : HasInput t x := by
  rwa [HasInput, h.inLen, h.hw, h.inBuf]

/-- A command reads the parameters and its input, and neither `W` nor `OUT` (R162). -/
theorem LooksAlike.exec {s t : State} (h : LooksAlike s t) (i : Instr) : AlikeOutcomes (exec i s) (exec i t) := by
  obtain ⟨s', hs, hto⟩ := exec_answers i s
  rw [hs]
  cases hto with
  | nop d hi =>
    subst hi
    exact h.completeNop.outcomes
  | capacity hi hlt =>
    rw [exec_capacity hi (by rwa [h.hw, h.inLen])]
    exact (h.complete _).outcomes
  | unwritten hi hle hun =>
    rw [exec_unwritten hi (by rwa [h.hw, h.inLen]) (by rwa [h.inLen, h.inBuf])]
    exact (h.recordModelFault _).outcomes
  | finished x hi hx =>
    rw [exec_input hi (h.hasInput hx)]
    exact (h.finishCommand i x).outcomes

/-- The latches count only while a command executes, and then they agree. -/
theorem LooksAlike.blockTurn {s t : State} (h : LooksAlike s t) : AlikeOutcomes (blockTurn s) (blockTurn t) := by
  unfold Machine.blockTurn
  rw [h.status]
  split
  case isTrue busy =>
    obtain ⟨hop, hdiag⟩ := h.latches busy
    rw [latchedCommand, latchedCommand, hop, hdiag]
    cases commandOf s.latchOp s.latchDiag with
    | none => exact h.outcomes
    | some i => exact h.exec i
  case isFalse => exact h.outcomes

theorem LooksAlike.acceptCommand {s t : State} (h : LooksAlike s t) (v : Word) :
    AlikeOutcomes (acceptCommand v s) (acceptCommand v t) := by
  have haccept := h.acceptWord v
  unfold Machine.acceptCommand
  split
  · exact (haccept.takeError .illegal 0).outcomes
  · exact haccept.completeNop.outcomes
  · exact (haccept.latchCommand v).outcomes

theorem LooksAlike.hostWrite {s t : State} (h : LooksAlike s t) (width : Nat) (offset : BitVec 8) (v : Word) :
    AlikeOutcomes (hostWrite width offset v s) (hostWrite width offset v t) := by
  unfold Machine.hostWrite
  rw [h.status]
  split
  · split
    · exact h.acceptCommand v
    · exact (h.writeRegister _ v).outcomes
  · exact h.outcomes

theorem LooksAlike.handleEvent {s t : State} (h : LooksAlike s t) (e : Event) :
    AlikeOutcomes (handleEvent e s) (handleEvent e t) := by
  cases e with
  | write width offset v => exact h.hostWrite width offset v
  | read width offset =>
    obtain ⟨hvalue, hafter⟩ := h.hostRead width offset
    refine LooksAlike.outcomes ?_
    rw [hvalue, h.replies]
    exact { hafter with replies := rfl }
  | blockTurn => exact h.blockTurn
  | reset =>
    exact LooksAlike.outcomes
      { h with
        cmd := rfl, status := rfl, inLen := rfl, outLen := rfl, inPtr := rfl, outPtr := rfl, inBuf := rfl
        stage := rfl, obs := rfl
        latches := fun _ => ⟨rfl, rfl⟩
        output := fun _ _ => rfl }

theorem LooksAlike.step {s t : State} (h : LooksAlike s t) : AlikeOutcomes (step s) (step t) := by
  cases hs : s.inbox with
  | nil =>
    rw [step_silent hs, step_silent (h.inbox.trans hs)]
    exact h.blockTurn
  | cons e rest =>
    rw [step_event hs, step_event (h.inbox.trans hs)]
    have hrest : LooksAlike { s with inbox := rest } { t with inbox := rest } := { h with inbox := rfl }
    exact hrest.handleEvent e

/-- Settles O55: by induction on the number of steps, each of which keeps the two states alike. -/
theorem hiddenStateIsUnobservable : Obligations.HiddenStateIsUnobservable := by
  intro n
  induction n with
  | zero =>
    intro s t s' h hrun
    cases hrun
    exact ⟨t, rfl, h⟩
  | succ n ih =>
    intro s t s' h hrun
    obtain ⟨s₁, t₁, hs, ht, halike⟩ := h.step
    rw [run_succ n hs] at hrun
    rw [run_succ n ht]
    exact ih s₁ t₁ s' halike hrun

end Sys2Proof.Safety
end

section
/-! What every command does to the state it starts from (spec/43_sequencer.md R162, R163; spec/60_exceptions.md R200,
R205): the input side, the output, `OBS` and `MF`. -/

namespace Sys2Proof.Machine

open Sys2Proof.Safety

/-! ### The finished command -/

theorem finishCommand_inputSideKept (i : Instr) (x : Buf) (s : State) : InputSideKept s (finishCommand i x s) :=
  { complete_kept (commandResult s.hw x i) (inputSideKept_refl s) with }

theorem finishCommand_mf (i : Instr) (x : Buf) (s : State) : (finishCommand i x s).mf = s.mf :=
  complete_mf (commandResult s.hw x i) s

theorem finishCommand_obs_prefix (i : Instr) (x : Buf) (s : State) : s.obs <+: (finishCommand i x s).obs :=
  List.prefix_append ..

/-- A command without pipeline stages emits no tap and leaves `W` alone (R166, R176). -/
theorem finishCommand_traceKept {i : Instr} {x : Buf} {s : State} (hstage : commandOutputs s.hw x i = []) :
    TraceKept s (finishCommand i x s) where
  work := by simp [finishCommand, hstage]
  obs := by simp [finishCommand, hstage, taps]
  mf := finishCommand_mf i x s

/-- R163: no command's result is longer than `MAX_LEN`. -/
theorem commandResult_length {i : Instr} {x y : Buf} {s : State} (hx : HasInput s x)
    (hr : commandResult s.hw x i = .ok y) : y.length ≤ s.hw.maxLen.toNat := by
  obtain ⟨hlen, hle, -⟩ := hx
  exact commandCore_length (hlen.trans_le hle) ((commandCore_result_eq i x s).trans hr)

theorem finishCommand_succeeded {i : Instr} {x y : Buf} {s : State} (hx : HasInput s x)
    (hr : commandResult s.hw x i = .ok y) : Succeeded s (finishCommand i x s) y := by
  have hy : y.length < 2 ^ 32 := (commandResult_length hx hr).trans_lt s.hw.maxLen.isLt
  rw [finishCommand, hr]
  exact { complete_succeeded (u := s) hy rfl with }

theorem finishCommand_failed {i : Instr} {x : Buf} {s : State} {k : ErrKind} {n : StageNo}
    (hr : commandResult s.hw x i = .err k n) : Failed s (finishCommand i x s) k.code n := by
  rw [finishCommand, hr]
  exact { complete_failed (u := s) k n rfl with }

/-! ### Stage commands on their own -/

theorem exec_stage_succeeds {i : Instr} {x y : Buf} {s : State} (hi : executes i = true) (hx : HasInput s x)
    (hstage : commandOutputs s.hw x i = []) (hr : commandResult s.hw x i = .ok y) :
    ∃ t, exec i s = .next t ∧ InputSideKept s t ∧ TraceKept s t ∧ Succeeded s t y :=
  ⟨_, exec_input hi hx, finishCommand_inputSideKept i x s, finishCommand_traceKept hstage,
    finishCommand_succeeded hx hr⟩

theorem exec_stage_fails {i : Instr} {x : Buf} {s : State} {k : ErrKind} {n : StageNo} (hi : executes i = true)
    (hx : HasInput s x) (hstage : commandOutputs s.hw x i = []) (hr : commandResult s.hw x i = .err k n) :
    ∃ t, exec i s = .next t ∧ InputSideKept s t ∧ TraceKept s t ∧ Failed s t k.code n :=
  ⟨_, exec_input hi hx, finishCommand_inputSideKept i x s, finishCommand_traceKept hstage, finishCommand_failed hr⟩

/-- R162: with `IN_LEN` above `MAX_LEN` a command ends before it looks at `IN`. -/
theorem exec_oversized {i : Instr} {s : State} (hi : executes i = true) (h : s.hw.maxLen.toNat < s.inLen.toNat) :
    ∃ t, exec i s = .next t ∧ InputSideKept s t ∧ TraceKept s t ∧ Failed s t .capacity 0 :=
  ⟨_, exec_capacity hi h, complete_kept _ (inputSideKept_refl s), ⟨rfl, rfl, rfl⟩, complete_failed .capacity 0 rfl⟩

/-! ### Every command -/

theorem mem_recordModelFault {r q : ModelFault} {s : State} :
    r ∈ (recordModelFault q s).mf ↔ r ∈ s.mf ∨ r = q := by
  rw [recordModelFault_mf]
  by_cases hq : q ∈ s.mf
  · rw [if_pos hq]
    exact ⟨.inl, fun h => h.elim id fun e => e ▸ hq⟩
  · rw [if_neg hq, List.mem_append, List.mem_singleton]

theorem ExecTo.inputSideKept {i : Instr} {s t : State} (h : ExecTo i s t) : InputSideKept s t := by
  cases h with
  | finished x => exact finishCommand_inputSideKept i x s
  | _ => exact { inputSideKept_refl s with }

theorem ExecTo.obs_prefix {i : Instr} {s t : State} (h : ExecTo i s t) : s.obs <+: t.obs := by
  cases h with
  | finished x => exact finishCommand_obs_prefix i x s
  | _ => exact List.prefix_rfl

/-- R36: a command only adds to `MF`. -/
theorem ExecTo.mf_subset {i : Instr} {s t : State} (h : ExecTo i s t) : ∀ r ∈ s.mf, r ∈ t.mf := by
  cases h with
  | finished x =>
    intro r hr
    rwa [finishCommand_mf]
  | unwritten => exact fun r hr => mem_recordModelFault.mpr (.inl hr)
  | _ => exact fun r hr => hr

/-- R23, R163: a command changes a cell of `OUT` only by completing with a result that covers it. -/
theorem ExecTo.outBuf_changed {i : Instr} {s t : State} (h : ExecTo i s t) {a : Nat}
    (ha : t.outBuf.read? a ≠ s.outBuf.read? a) :
    t.status.busy = false ∧ t.status.done = true ∧ t.status.err = .none ∧ a < t.outLen.toNat := by
  cases h with
  | finished x _ hx =>
    cases hr : commandResult s.hw x i with
    | ok y =>
      have hdone := finishCommand_succeeded hx hr
      have hwithin : a < y.length := by
        by_contra hbeyond
        exact ha (hdone.beyond a (not_lt.mp hbeyond))
      exact ⟨hdone.busy, hdone.done, hdone.err, hdone.outLen ▸ hwithin⟩
    | err k n => exact absurd (congrArg (Memory.read? · a) (finishCommand_failed hr).outBuf) ha
  | _ => exact absurd rfl ha

end Sys2Proof.Machine

namespace Sys2Proof.Safety

open Sys2Proof.Machine

/-- Settles O34: however a command ends, it writes none of the fields of the input side. -/
theorem noCommandChangesItsInput : Obligations.NoCommandChangesItsInput :=
  fun _ _ _ h => (execTo_of_exec h).inputSideKept

/-- Settles O32: the fault is recorded once, and the command then finds the same unwritten cell again. -/
theorem unwrittenInputIsAModelFault : Obligations.UnwrittenInputIsAModelFault := by
  intro i s hi hle hun
  have hto : ExecTo i s (recordModelFault .unwrittenRead s) := .unwritten hi hle hun
  have hagain := exec_unwritten (s := recordModelFault .unwrittenRead s) hi hle hun
  rw [recordModelFault_twice] at hagain
  exact ⟨_, exec_unwritten hi hle hun, mem_recordModelFault.mpr (.inr rfl), hto.mf_subset, hagain⟩

/-- Settles O23: AEAD_ENC has the result that `aeadEnc_cases` gives, and the cipher's law gives its length. -/
theorem aeadEncWritesTheSealedInput : Obligations.AeadEncWritesTheSealedInput := by
  intro d s
  refine ⟨fun x hx hfits => ?_, fun x hx htoo_long => ?_, exec_oversized rfl⟩
  · rcases aeadEnc_cases s.hw x with ⟨htoo_long, -⟩ | ⟨-, hr⟩
    · omega
    · obtain ⟨t, ht, hkept, htrace, hdone⟩ := exec_stage_succeeds (i := .aeadEnc d) rfl hx rfl hr
      exact ⟨t, _, ht, hkept, htrace, rfl, s.hw.cipher.seal_length .., hdone⟩
  · rcases aeadEnc_cases s.hw x with ⟨-, hr⟩ | ⟨hfits, -⟩
    · exact exec_stage_fails (i := .aeadEnc d) rfl hx rfl hr
    · omega

end Sys2Proof.Safety
end

section
/-! The host register window, access by access (spec/10_state.md R24 to R32, R38, R40; spec/20_memory.md R50 to
R54), and the write of `CMD` (spec/43_sequencer.md R160, R161, R170). -/

namespace Sys2Proof

/-! ### The decoder in terms of the word as a number -/

/-- R70, R72: the word of a command has its `OP`, and is legal. -/
theorem decode_ok_fields {v : Word} {i : Instr} (h : decode v = .ok i) :
    opcodeOf i = opField v ∧ v.toNat % 16 < 10 ∧ v.toNat / 32 = 0 := by
  obtain ⟨hrsv, hop⟩ := decode_eq_ok.mp h
  refine ⟨(commandOf_eq_some hop).1, ?_, (rsvField_eq_zero v).mp hrsv⟩
  by_contra hreserved
  have hnone := (commandOf_eq_none (opField v) (diagField v)).mpr (by rw [opField_toNat]; omega)
  cases hnone.symm.trans hop

/-- R72: the illegal words are those with a reserved `OP` or a nonzero `RSV`. -/
theorem decode_error_fields {v : Word} {e : DecodeError} (h : decode v = .error e) :
    10 ≤ v.toNat % 16 ∨ v.toNat / 32 ≠ 0 := by
  by_contra hlegal
  rw [not_or, not_le, not_not] at hlegal
  obtain ⟨hop, hrsv⟩ := hlegal
  cases hi : commandOf (opField v) (diagField v) with
  | none =>
    have := (commandOf_eq_none _ _).mp hi
    rw [opField_toNat] at this
    omega
  | some i => cases h.symm.trans (decode_eq_ok.mpr ⟨(rsvField_eq_zero v).mpr hrsv, hi⟩)

theorem opField_eq_zero (v : Word) : opField v = 0 ↔ v.toNat % 16 = 0 := by
  rw [← BitVec.toNat_inj, opField_toNat]
  rfl

end Sys2Proof

namespace Sys2Proof.Machine

open Sys2Proof.Safety

/-! ### The registers -/

/-- R38: every offset from 0x2C on is reserved. -/
theorem registerAt_reserved {offset : BitVec 8} (h : 0x2C ≤ offset.toNat) : registerAt offset = .reserved := by
  unfold registerAt
  split
  case h_12 => rfl
  all_goals omega

/-- The registers whose writes are ignored (R26, R28, R31, R32, R38). -/
def Register.readOnly : Register → Bool
  | .cmd | .inLen | .inPtr | .inData | .outPtr => false
  | .status | .outLen | .outData | .info | .capacity | .config | .reserved => true

theorem writeRegister_readOnly {r : Register} (h : r.readOnly = true) (v : Word) (s : State) :
    writeRegister r v s = s := by
  cases r with
  | cmd | inLen | inPtr | inData | outPtr => cases h
  | _ => rfl

theorem readOnly_of_reserved {offset : BitVec 8} (h : 0x2C ≤ offset.toNat) :
    (registerAt offset).readOnly = true := congrArg Register.readOnly (registerAt_reserved h)

/-- A number and the bits below it, one after the other. -/
theorem toNat_append_add {n m : Nat} (a : BitVec n) (b : BitVec m) :
    (a ++ b).toNat = a.toNat * 2 ^ m + b.toNat := by
  rw [BitVec.toNat_append, ← Nat.shiftLeft_add_eq_or_of_lt b.isLt, Nat.shiftLeft_eq]

theorem ErrCode.bits_toNat (c : ErrCode) : c.bits.toNat = errNumber c := by cases c <;> rfl

/-- R26: the word of `STATUS` is the number that its fields spell. -/
theorem Status.word_eq (f : Status) : f.word = BitVec.ofNat 32 (statusNumber f) := by
  have hstage := f.failStage.isLt
  have hop := f.lastOp.isLt
  have herr := f.err.bits.isLt
  apply BitVec.eq_of_toNat_eq
  simp only [Status.word, statusNumber, toNat_append_add, BitVec.toNat_ofNat, BitVec.toNat_ofBool,
    ErrCode.bits_toNat] at herr ⊢
  cases f.busy <;> cases f.done <;> simp only [Bool.toNat_true, Bool.toNat_false] <;> omega

/-- R32: the two bits of `CONFIG`. -/
theorem configWord_eq (p : Params) :
    configWord p = BitVec.ofNat 32
      ((if p.layering = .aInner then 1 else 0) + (if p.trailing = .ignore then 2 else 0)) := by
  unfold configWord
  cases p.layering <;> cases p.trailing <;> rfl

/-! ### One access -/

/-- R40: while a command executes every write is ignored. -/
theorem step_write_busy {s : State} {width : Nat} {offset : BitVec 8} {v : Word} {rest : List Event}
    (h : s.inbox = .write width offset v :: rest) (busy : s.status.busy = true) :
    step s = .next { s with inbox := rest } := by
  rw [step_event h]
  exact hostWrite_busy width offset v (s := { s with inbox := rest }) busy

/-- A write of a register that cannot be written is ignored, whatever its width and the state of the block. -/
theorem step_write_readOnly {s : State} {width : Nat} {offset : BitVec 8} {v : Word} {rest : List Event}
    (h : s.inbox = .write width offset v :: rest) (hr : (registerAt offset).readOnly = true) :
    step s = .next { s with inbox := rest } := by
  have not_cmd : registerAt offset ≠ .cmd := by
    intro hcmd
    rw [hcmd] at hr
    cases hr
  rw [step_event h, handleEvent, hostWrite, if_neg not_cmd, writeRegister_readOnly hr]
  split <;> rfl

/-- R52: an idle block answers an aligned word write of any register but `CMD`. -/
theorem step_write_idle {s : State} {offset : BitVec 8} {v : Word} {rest : List Event}
    (h : s.inbox = .write 32 offset v :: rest) (idle : s.status.busy = false) (ha : offset.toNat % 4 = 0)
    (hr : registerAt offset ≠ .cmd) :
    step s = .next (writeRegister (registerAt offset) v { s with inbox := rest }) := by
  rw [step_event h, handleEvent, hostWrite, if_pos (by simp [wordAccess, ha, idle]), if_neg hr]

theorem step_write_inLen {s : State} {v : Word} {rest : List Event} (h : s.inbox = .write 32 0x08 v :: rest)
    (idle : s.status.busy = false) : step s = .next { s with inbox := rest, inLen := v } :=
  step_write_idle h idle rfl nofun

theorem step_write_inPtr {s : State} {v : Word} {rest : List Event} (h : s.inbox = .write 32 0x10 v :: rest)
    (idle : s.status.busy = false) : step s = .next { s with inbox := rest, inPtr := v } :=
  step_write_idle h idle rfl nofun

theorem step_write_outPtr {s : State} {v : Word} {rest : List Event} (h : s.inbox = .write 32 0x18 v :: rest)
    (idle : s.status.busy = false) : step s = .next { s with inbox := rest, outPtr := v } :=
  step_write_idle h idle rfl nofun

/-- R29: `IN_DATA` below `MAX_LEN`. -/
theorem step_write_inData {s : State} {v : Word} {rest : List Event} (h : s.inbox = .write 32 0x14 v :: rest)
    (idle : s.status.busy = false) (hlt : s.inPtr.toNat < s.hw.maxLen.toNat) :
    step s = .next { s with
      inbox := rest, inBuf := s.inBuf.write s.inPtr.toNat (v.extractLsb' 0 8), inPtr := s.inPtr + 1 } :=
  (step_write_idle h idle rfl nofun).trans (congrArg _ (writeInData_store (s := { s with inbox := rest }) hlt v))

/-- R29: `IN_DATA` at or beyond `MAX_LEN`. -/
theorem step_write_inData_full {s : State} {v : Word} {rest : List Event} (h : s.inbox = .write 32 0x14 v :: rest)
    (idle : s.status.busy = false) (hfull : s.hw.maxLen.toNat ≤ s.inPtr.toNat) :
    step s = .next { s with inbox := rest } :=
  (step_write_idle h idle rfl nofun).trans (congrArg _ (writeInData_full (s := { s with inbox := rest }) hfull v))

/-- R40, R160: a word write of `CMD` is ignored by a busy block and accepted by an idle one. -/
theorem step_write_cmd {s : State} {v : Word} {rest : List Event} (h : s.inbox = .write 32 0x00 v :: rest)
    (idle : s.status.busy = false) : step s = acceptCommand v { s with inbox := rest } := by
  rw [step_event h, handleEvent, hostWrite, if_pos (by simp [wordAccess, idle]),
    if_pos (show registerAt 0x00 = .cmd from rfl)]

/-- R52: the block answers an aligned word read. -/
theorem step_read {s t : State} {offset : BitVec 8} {rest : List Event} {value : Word}
    (h : s.inbox = .read 32 offset :: rest) (ha : offset.toNat % 4 = 0)
    (hr : readRegister (registerAt offset) { s with inbox := rest } = (value, t)) :
    step s = .next { t with replies := s.replies ++ [value] } := by
  rw [step_event h, handleEvent, hostRead, if_pos (by simp [wordAccess, ha]), hr]

theorem step_read_outLen {s : State} {rest : List Event} (h : s.inbox = .read 32 0x0C :: rest) :
    step s = .next { s with inbox := rest, replies := s.replies ++ [s.outLen] } := step_read h rfl rfl

/-- R31: nothing to read at `OUT_PTR`. -/
theorem readOutData_empty {s : State} (h : s.status.busy = true ∨ s.outLen.toNat ≤ s.outPtr.toNat) :
    readOutData s = (0, s) := by
  refine if_neg fun ⟨idle, hlt⟩ => ?_
  rcases h with busy | hle
  · cases busy.symm.trans idle
  · exact absurd hlt (not_lt.mpr hle)

/-- R31: the byte at `OUT_PTR`. -/
theorem readOutData_byte {s : State} {b : Byte} (idle : s.status.busy = false)
    (hlt : s.outPtr.toNat < s.outLen.toNat) (hb : s.outBuf.read? s.outPtr.toNat = some b) :
    readOutData s = (b.setWidth 32, { s with outPtr := s.outPtr + 1 }) := by
  have hbyte : outByte s s.outPtr.toNat = b := by simp [outByte, hb]
  rw [readOutData, if_pos ⟨idle, hlt⟩, hbyte]

theorem step_read_outData {s : State} {b : Byte} {rest : List Event} (h : s.inbox = .read 32 0x1C :: rest)
    (idle : s.status.busy = false) (hlt : s.outPtr.toNat < s.outLen.toNat)
    (hb : s.outBuf.read? s.outPtr.toNat = some b) :
    step s = .next { s with inbox := rest, outPtr := s.outPtr + 1, replies := s.replies ++ [b.setWidth 32] } :=
  step_read h rfl (readOutData_byte (s := { s with inbox := rest }) idle hlt hb)

/-- A pointer below a 32-bit bound does not wrap. -/
theorem toNat_add_one {p bound : Word} (h : p.toNat < bound.toNat) : (p + 1).toNat = p.toNat + 1 := by
  bv_omega

end Sys2Proof.Machine

namespace Sys2Proof.Safety

open Sys2Proof.Machine

/-! ### Reads -/

/-- Settles O9: each register of the list is read by its own arm of `readRegister`. -/
theorem plainRegisterReadsReturnTheRegister : Obligations.PlainRegisterReadsReturnTheRegister := by
  intro s offset rest value h hlisted
  rcases hlisted with
    ⟨rfl, rfl⟩ | ⟨rfl, rfl⟩ | ⟨rfl, rfl⟩ | ⟨rfl, rfl⟩ | ⟨rfl, rfl⟩ | ⟨rfl, rfl⟩ | ⟨rfl, rfl⟩
  case inr.inl => -- `STATUS`
    rw [← Status.word_eq]
    exact step_read h rfl rfl
  case inr.inr.inr.inr.inr.inl => -- `IN_DATA`
    exact step_read h rfl rfl
  all_goals
    rw [BitVec.ofNat_toNat, BitVec.setWidth_eq]
    exact step_read h rfl rfl

/-- Settles O13: the two answers of `readOutData`. -/
theorem outDataReadReturnsTheNextByte : Obligations.OutDataReadReturnsTheNextByte := by
  intro s rest h
  refine ⟨fun hempty => ?_, fun b idle hlt hb => ⟨step_read_outData h idle hlt hb, toNat_add_one hlt⟩⟩
  exact step_read h rfl (readOutData_empty (s := { s with inbox := rest }) hempty)

/-- Settles O53: the invariant keeps `OUT_LEN`, `ERR` and `FAIL_STAGE` clear in a busy block, and `DONE` with them. -/
theorem readsWhileBusyShowNoResult : Obligations.ReadsWhileBusyShowNoResult := by
  intro s rest hinv busy
  obtain ⟨herr, hstage, hlen, -⟩ := hinv.busyClear busy
  have hdone : s.status.done = false := Bool.eq_false_iff.mpr fun done => hinv.notBoth ⟨busy, done⟩
  have hstatus : s.status.word = BitVec.ofNat 32 (1 + 256 * s.status.lastOp.toNat) := by
    simp [Status.word_eq, statusNumber, busy, hdone, herr, hstage, errNumber]
  refine ⟨fun h => ?_, fun h => ?_, fun h => ?_⟩
  · rw [← hlen]
    exact step_read_outLen h
  · exact step_read h rfl (readOutData_empty (s := { s with inbox := rest }) (.inl busy))
  · rw [← hstatus]
    exact step_read h rfl rfl

/-! ### Writes -/

/-- Settles O6: a busy block ignores every write, and the offsets of the list hold read-only registers. -/
theorem writesWhileBusyOrToReadOnlyOffsetsAreIgnored : Obligations.WritesWhileBusyOrToReadOnlyOffsetsAreIgnored := by
  rintro s width offset v rest h (busy | hlisted | hreserved)
  · exact step_write_busy h busy
  · have all_read_only : ∀ o ∈ [0x04#8, 0x0C#8, 0x1C#8, 0x20#8, 0x24#8, 0x28#8],
        (registerAt o).readOnly = true := by decide
    exact step_write_readOnly h (all_read_only offset hlisted)
  · exact step_write_readOnly h (readOnly_of_reserved hreserved)

/-- Settles O8: the reserved register reads 0 and is read-only. -/
theorem reservedOffsetsReadZeroAndIgnoreWrites : Obligations.ReservedOffsetsReadZeroAndIgnoreWrites := by
  intro s offset rest hoffset ha
  refine ⟨fun v h => step_write_readOnly h (readOnly_of_reserved hoffset), fun h => ?_⟩
  exact step_read h ha (by rw [registerAt_reserved hoffset, readRegister])

/-- Settles O11: the three registers that store a word as written. -/
theorem idleWritesStoreLengthAndPointers : Obligations.IdleWritesStoreLengthAndPointers :=
  fun _ _ _ idle =>
    ⟨(step_write_inLen · idle), (step_write_inPtr · idle), (step_write_outPtr · idle)⟩

/-- Settles O12: `IN_DATA` writes one cell, and `Memory.write` changes no other. -/
theorem inDataWriteStoresOneByte : Obligations.InDataWriteStoresOneByte := by
  intro s v rest h
  refine ⟨fun hignored => ?_, fun idle hlt => ?_⟩
  · cases hb : s.status.busy with
    | true => exact step_write_busy h hb
    | false => exact step_write_inData_full h hb (hignored.resolve_left (by simp [hb]))
  · have hbyte : v.extractLsb' 0 8 = BitVec.ofNat 8 (v.toNat % 256) := by
      apply BitVec.eq_of_toNat_eq
      simp
    refine ⟨_, step_write_inData h idle hlt, toNat_add_one hlt, ?_, fun a ha => Memory.read?_write_ne _ _ ha⟩
    rw [Memory.read?_write_self, hbyte]

/-- Settles O3: the three ways to accept a word, told apart by its `OP` and `RSV` as numbers. -/
theorem cmdWriteIsAcceptedAsTheRuleSays : Obligations.CmdWriteIsAcceptedAsTheRuleSays := by
  intro s v rest h
  cases hb : s.status.busy with
  | true => exact step_write_busy h hb
  | false =>
    rw [step_write_cmd h hb, if_neg Bool.false_ne_true, ← opField_eq_setWidth]
    rcases acceptCommand_cases v { s with inbox := rest } with ⟨⟨e, he⟩, ha⟩ | ⟨d, hd, ha⟩ | ⟨i, hi, hexec, ha⟩
    · rw [ha, if_pos (decode_error_fields he)]
      rfl
    · obtain ⟨hop, hlegal, hrsv⟩ := decode_ok_fields hd
      have hzero : opField v = 0 := hop.symm
      rw [ha, if_neg (by omega), if_pos ((opField_eq_zero v).mp hzero)]
      simp [completeNop, acceptWord, Status.finishNop, Status.accept, hb, hzero]
    · obtain ⟨hop, hlegal, hrsv⟩ := decode_ok_fields hi
      have hnonzero : opField v ≠ 0 := by
        rw [← hop]
        simpa [executes] using hexec
      rw [ha, if_neg (by omega), if_neg (mt (opField_eq_zero v).mpr hnonzero)]
      rfl

/-! ### The map, and power-up -/

/-- Settles O59: the offsets are the table's, and the window is the 256 bytes from `REG_BASE` on. -/
theorem theRegisterMapAndTheWindow : Obligations.TheRegisterMapAndTheWindow := by
  refine ⟨by decide, fun offset => registerAt_reserved, ?_, ?_, ?_⟩
  · intro r
    cases r <;> exact ⟨rfl, rfl⟩
  · intro p offset
    have := offset.isLt
    rw [windowOffset, if_pos (by omega), Nat.add_sub_cancel_left, BitVec.ofNat_toNat, BitVec.setWidth_eq]
  · intro p a houtside
    exact if_neg (by omega)

/-- Settles O15: the fields of `State.powerUp`, none of which depends on the open parameters. -/
theorem powerUpStateHoldsTheResetValues : Obligations.PowerUpStateHoldsTheResetValues :=
  ⟨rfl, rfl, rfl, rfl, rfl, rfl, fun _ => rfl, rfl, rfl, rfl⟩

end Sys2Proof.Safety
end

section
/-! What no step does but a command's completion or a reset: the frames of every step (spec/10_state.md R23, R32, R33,
R36). -/

namespace Sys2Proof.Safety

open Sys2Proof.Machine

/-- What a step leaves alone that is neither a command's execution nor a reset. -/
structure AccessFrame (s t : State) : Prop where
  hw : t.hw = s.hw
  outBuf : t.outBuf = s.outBuf
  obs : t.obs = s.obs
  mf : t.mf = s.mf
  inWritten : ∀ a, s.inBuf.read? a ≠ none → t.inBuf.read? a ≠ none

theorem writeRegister_accessFrame (r : Register) (v : Word) (s : State) : AccessFrame s (writeRegister r v s) := by
  obtain ⟨hframe, hwritten⟩ := writeRegister_frame r v s
  rw [hframe]
  exact ⟨rfl, rfl, rfl, rfl, hwritten⟩

theorem hostRead_accessFrame (width : Nat) (offset : BitVec 8) (s : State) :
    AccessFrame s (hostRead width offset s).2 := by
  rcases hostRead_state width offset s with e | ⟨-, -, e⟩ <;> rw [e] <;> exact ⟨rfl, rfl, rfl, rfl, fun _ ha => ha⟩

/-- A step executes a command, resets the block, or changes nothing of `AccessFrame`. -/
theorem step_frame {s t : State} (h : step s = .next t) :
    AccessFrame s t ∨ (s.status.busy = true ∧ ∃ i, ExecTo i s.popEvent t) ∨
      ((∃ rest, s.inbox = .reset :: rest) ∧ t = platformReset s.popEvent) := by
  cases step_cases h with
  | register r v => exact .inl { writeRegister_accessFrame r v s.popEvent with }
  | read width offset => exact .inl { hostRead_accessFrame width offset s.popEvent with }
  | turn i busy _ ht => exact .inr (.inl ⟨busy, i, ht⟩)
  | reset rest hreset => exact .inr (.inr ⟨⟨rest, hreset⟩, rfl⟩)
  | _ => exact .inl ⟨rfl, rfl, rfl, rfl, fun _ ha => ha⟩

/-- R30, R32: no step changes the hardwired parameters. -/
theorem step_keeps_hw {s t : State} (h : step s = .next t) : t.hw = s.hw := by
  rcases step_frame h with hframe | ⟨-, i, ht⟩ | ⟨-, rfl⟩
  · exact hframe.hw
  · exact ht.inputSideKept.hw
  · rfl

/-- Settles O10: three read-only registers made of parameters that no step changes. -/
theorem identificationRegistersAreHardwired : Obligations.IdentificationRegistersAreHardwired := by
  refine ⟨fun s rest => ⟨fun h => step_read h rfl rfl, fun h => step_read h rfl rfl, fun h => ?_⟩, ?_, ?_⟩
  · rw [← configWord_eq]
    exact step_read h rfl rfl
  · intro s offset v rest hoffset h
    have all_read_only : ∀ o ∈ [0x20#8, 0x24#8, 0x28#8], (registerAt o).readOnly = true := by decide
    exact step_write_readOnly h (all_read_only offset hoffset)
  · exact fun s t => step_keeps_hw

/-- Settles O50: a command only adds to `MF`, and a reset keeps it. -/
theorem modelFaultsAreNeverCleared : Obligations.ModelFaultsAreNeverCleared := by
  intro s t h r hr
  rcases step_frame h with hframe | ⟨-, i, ht⟩ | ⟨-, rfl⟩
  · exact hframe.mf ▸ hr
  · exact ht.mf_subset r hr
  · exact hr

/-- Settles O51: a command appends to `OBS` and does not write `IN`; a host access writes `IN` and not `OBS`. -/
theorem onlyResetForgetsTheTraceAndTheInput : Obligations.OnlyResetForgetsTheTraceAndTheInput := by
  intro s t hno_reset h
  rcases step_frame h with hframe | ⟨-, i, ht⟩ | ⟨⟨rest, hreset⟩, -⟩
  · exact ⟨hframe.obs ▸ List.prefix_rfl, hframe.inWritten⟩
  · exact ⟨ht.obs_prefix, fun a ha => ht.inputSideKept.inBuf ▸ ha⟩
  · exact absurd hreset (hno_reset rest)

/-- Settles O52: of the steps that are no reset, only a command's execution writes `OUT`. -/
theorem outputChangesOnlyOnSuccess : Obligations.OutputChangesOnlyOnSuccess := by
  intro s t a hno_reset h ha
  rcases step_frame h with hframe | ⟨busy, i, ht⟩ | ⟨⟨rest, hreset⟩, -⟩
  · exact absurd (congrArg (Memory.read? · a) hframe.outBuf) ha
  · exact ⟨busy, ht.outBuf_changed ha⟩
  · exact absurd hreset (hno_reset rest)

end Sys2Proof.Safety
end

section
/-! Runs of several host accesses: the schedule around an executing command (spec/20_memory.md R58), and the pseudo
instructions `LOAD` and `UNLOAD` (spec/30_encoding.md R85). -/

namespace Sys2Proof.Machine

open Sys2Proof.Safety

/-! ### The values a host has read do not reach the block -/

theorem finishCommand_replies (i : Instr) (x : Buf) (s : State) (vs : List Word) :
    finishCommand i x { s with replies := vs } = { finishCommand i x s with replies := vs } := by
  unfold finishCommand
  cases commandResult s.hw x i <;> rfl

theorem exec_replies {i : Instr} {s t : State} (h : exec i s = .next t) (vs : List Word) :
    exec i { s with replies := vs } = .next { t with replies := vs } := by
  cases execTo_of_exec h with
  | nop d hi =>
    subst hi
    rfl
  | capacity hi hlt => exact exec_capacity hi hlt
  | unwritten hi hle hun => exact exec_unwritten hi hle hun
  | finished x hi hx =>
    exact (exec_input (s := { s with replies := vs }) hi hx).trans (congrArg _ (finishCommand_replies i x s vs))

theorem blockTurn_replies {s t : State} (h : blockTurn s = .next t) (vs : List Word) :
    blockTurn { s with replies := vs } = .next { t with replies := vs } := by
  cases hb : s.status.busy with
  | false =>
    cases (blockTurn_idle hb).symm.trans h
    exact blockTurn_idle hb
  | true =>
    cases hi : latchedCommand s with
    | none =>
      have hstay : blockTurn s = .next s := by simp [blockTurn, hb, hi]
      cases hstay.symm.trans h
      have hi' : latchedCommand { s with replies := vs } = none := hi
      simp [blockTurn, hb, hi']
    | some i =>
      rw [blockTurn_busy hb hi] at h
      rw [blockTurn_busy (s := { s with replies := vs }) hb hi]
      exact exec_replies h vs

/-- R40: a read in a busy block gives the host a value and changes nothing else. -/
theorem step_read_busy {s : State} (busy : s.status.busy = true) (width : Nat) (offset : BitVec 8)
    (es : List Event) (vs : List Word) :
    step { s with inbox := .read width offset :: es, replies := vs } =
      .next { s with inbox := es, replies := vs ++ [(hostRead width offset s).1] } := by
  have hstate := hostRead_busy width offset (s := { s with inbox := es, replies := vs }) busy
  have hvalue := hostRead_value width offset s es vs
  rw [step_event rfl]
  simp only [handleEvent, hstate, hvalue]

/-- R58: by induction on the accesses, each of which leaves the busy block as it is. -/
theorem run_accesses_then_turn {s t : State} {rest : List Event} (busy : s.status.busy = true)
    (hturn : blockTurn { s with inbox := rest } = .next t) (es : List Event) (hes : ∀ e ∈ es, hostAccess e = true)
    (vs : List Word) :
    Host.Core.run core (es.length + 1) { s with inbox := es ++ .blockTurn :: rest, replies := vs } =
      .next { t with replies := vs ++ readValues s es } := by
  induction es generalizing vs with
  | nil =>
    have hstep : step { s with inbox := .blockTurn :: rest, replies := vs } = .next { t with replies := vs } :=
      blockTurn_replies hturn vs
    rw [readValues, List.append_nil]
    exact run_succ 0 hstep
  | cons e es ih =>
    have ih := ih fun e he => hes e (List.mem_cons_of_mem _ he)
    cases e with
    | write width offset v =>
      have hstep : step { s with inbox := .write width offset v :: (es ++ .blockTurn :: rest), replies := vs } =
          .next { s with inbox := es ++ .blockTurn :: rest, replies := vs } := step_write_busy rfl busy
      exact (run_succ _ hstep).trans (ih vs)
    | read width offset =>
      rw [readValues, List.append_cons vs]
      exact (run_succ _ (step_read_busy busy ..)).trans (ih _)
    | blockTurn => cases hes _ (List.mem_cons_self ..)
    | reset => cases hes _ (List.mem_cons_self ..)

/-! ### `LOAD` -/

/-- R29: the byte that a word write of `IN_DATA` stores is the one that `LOAD` put in the word. -/
theorem extractLsb'_setWidth_byte (b : Byte) : (b.setWidth 32).extractLsb' 0 8 = b := by
  apply BitVec.eq_of_toNat_eq
  simpa using b.isLt

/-- R29: writes of `IN_DATA` that stay below `MAX_LEN` write a buffer, byte by byte. -/
theorem run_writes_inData (bs : Buf) (n : Nat) {s : State} {rest : List Event} (idle : s.status.busy = false)
    (hfits : s.inPtr.toNat + bs.length ≤ s.hw.maxLen.toNat)
    (h : s.inbox = bs.map (fun b => .write 32 0x14 (b.setWidth 32)) ++ rest) :
    Host.Core.run core (bs.length + n) s =
      Host.Core.run core n { s with
        inbox := rest
        inPtr := s.inPtr + BitVec.ofNat 32 bs.length
        inBuf := s.inBuf.writeBytes s.inPtr.toNat bs } := by
  induction bs generalizing s with
  | nil =>
    cases s
    cases h
    simp [Memory.writeBytes]
  | cons b bs ih =>
    rw [List.length_cons] at hfits
    have hlt : s.inPtr.toNat < s.hw.maxLen.toNat := by omega
    have hnext := toNat_add_one hlt
    have hstep := step_write_inData h idle hlt
    rw [extractLsb'_setWidth_byte] at hstep
    have hrest := ih (s := { s with
      inbox := bs.map (fun b => .write 32 0x14 (b.setWidth 32)) ++ rest
      inBuf := s.inBuf.write s.inPtr.toNat b
      inPtr := s.inPtr + 1 }) idle (by simp only [hnext]; omega) rfl
    have hptr : s.inPtr + 1 + BitVec.ofNat 32 bs.length = s.inPtr + BitVec.ofNat 32 (bs.length + 1) := by
      rw [BitVec.add_assoc, Nat.add_comm, BitVec.ofNat_add]
      rfl
    rw [List.length_cons, Nat.add_right_comm, run_succ _ hstep]
    refine hrest.trans ?_
    simp only [hnext, hptr, Memory.writeBytes]

/-! ### `UNLOAD` -/

/-- R31: reads of `OUT_DATA` up to `OUT_LEN` return the rest of the result, byte by byte. -/
theorem run_reads_outData (ys : Buf) {s : State} (idle : s.status.busy = false)
    (hlen : s.outPtr.toNat + ys.length = s.outLen.toNat)
    (hbytes : ∀ i, i < ys.length → s.outBuf.read? (s.outPtr.toNat + i) = ys[i]?)
    (h : s.inbox = List.replicate ys.length (.read 32 0x1C)) :
    Host.Core.run core ys.length s =
      .next { s with
        inbox := [], outPtr := s.outLen, replies := s.replies ++ ys.map (fun b => b.setWidth 32) } := by
  induction ys generalizing s with
  | nil =>
    have hptr : s.outPtr = s.outLen := BitVec.eq_of_toNat_eq hlen
    cases s
    cases h
    cases hptr
    simp [Host.Core.run]
  | cons b ys ih =>
    rw [List.length_cons] at hlen hbytes
    have hlt : s.outPtr.toNat < s.outLen.toNat := by omega
    have hnext := toNat_add_one hlt
    have hb : s.outBuf.read? s.outPtr.toNat = some b := hbytes 0 (Nat.succ_pos _)
    have hstep := step_read_outData h idle hlt hb
    have hrest : ∀ i, i < ys.length → s.outBuf.read? ((s.outPtr + 1).toNat + i) = ys[i]? := by
      intro i hi
      rw [hnext, Nat.add_right_comm]
      exact hbytes (i + 1) (Nat.succ_lt_succ hi)
    have htail := ih (s := { s with
      inbox := List.replicate ys.length (.read 32 0x1C)
      outPtr := s.outPtr + 1
      replies := s.replies ++ [b.setWidth 32] }) idle (by simp only [hnext]; omega) hrest rfl
    refine (run_succ _ hstep).trans (htail.trans ?_)
    simp

end Sys2Proof.Machine

namespace Sys2Proof.Safety

open Sys2Proof.Machine

/-- Settles O54: `run_accesses_then_turn` from the values that the host has already read. -/
theorem theScheduleDoesNotChangeTheResult : Obligations.TheScheduleDoesNotChangeTheResult :=
  fun s _ es _ busy hes hturn => run_accesses_then_turn busy hturn es hes s.replies

/-- Settles O57: `IN_PTR` is cleared, the bytes are written from index 0 on, and `IN_LEN` becomes their number. -/
theorem loadMakesTheBytesTheInput : Obligations.LoadMakesTheBytesTheInput := by
  intro s bs idle hfits h
  have hlen : (BitVec.ofNat 32 bs.length).toNat = bs.length := by
    have := s.hw.maxLen.isLt
    rw [BitVec.toNat_ofNat]
    omega
  refine ⟨_, (run_succ _ (step_write_inPtr h idle)).trans ((run_writes_inData bs 1 ?_ ?_ rfl).trans
    (run_succ 0 (step_write_inLen rfl ?_))), ?_⟩
  · exact idle
  · exact (Nat.zero_add _).trans_le hfits
  · exact idle
  · refine ⟨⟨hlen.symm, hlen.trans_le hfits, fun i hi => ?_⟩, ?_, rfl, rfl, rfl, rfl, rfl, rfl⟩
    · exact (Memory.read?_writeBytes_zero _ _ _).trans (if_pos hi)
    · simpa using hlen

/-- Settles O58: `OUT_PTR` is cleared, `OUT_LEN` is read, and then every byte of the result. -/
theorem unloadReturnsTheResult : Obligations.UnloadReturnsTheResult := by
  intro s y idle hlen hbytes h
  refine (run_succ _ (step_write_outPtr h idle)).trans ((run_succ _ (step_read_outLen rfl)).trans
    ((run_reads_outData y ?_ ?_ ?_ rfl).trans ?_))
  · exact idle
  · exact (Nat.zero_add _).trans hlen.symm
  · simpa using hbytes
  · simp

end Sys2Proof.Safety
end

section
/-! Accesses that the block does not answer: of another width than 32 bits, or at a misaligned offset
(spec/20_memory.md R52). -/

namespace Sys2Proof.Machine

theorem wordAccess_eq_false_iff (width : Nat) (offset : BitVec 8) :
    wordAccess width offset = false ↔ width ≠ 32 ∨ offset.toNat % 4 ≠ 0 := by
  rw [wordAccess, Bool.and_eq_false_iff, decide_eq_false_iff_not, decide_eq_false_iff_not]

theorem hostWrite_unanswered {width : Nat} {offset : BitVec 8} (ha : wordAccess width offset = false) (v : Word)
    (s : State) : hostWrite width offset v s = .next s := by
  simp [hostWrite, ha]

theorem hostRead_unanswered {width : Nat} {offset : BitVec 8} (ha : wordAccess width offset = false) (s : State) :
    hostRead width offset s = (0, s) := by
  simp [hostRead, ha]

end Sys2Proof.Machine

namespace Sys2Proof.Safety

open Sys2Proof.Machine

/-- Settles O7: such an access is no `wordAccess`, which both kinds of access test before they reach a register. -/
theorem narrowAndMisalignedAccessesAreIgnored : Obligations.NarrowAndMisalignedAccessesAreIgnored := by
  intro s width offset rest hbad
  have unanswered : wordAccess width offset = false := (wordAccess_eq_false_iff width offset).mpr hbad
  refine ⟨fun v h => ?write, fun h => ?read⟩
  case write => rw [step_event h, handleEvent, hostWrite_unanswered unanswered]
  case read => rw [step_event h, handleEvent, hostRead_unanswered unanswered]

end Sys2Proof.Safety
end

section
/-! The decoder and the encoder (spec/30_encoding.md R70 to R76): a command word is the three fields it carries. -/

namespace Sys2Proof

/-- What `Laws.WordFields` says of each command, for all of them. -/
theorem wordFields (i : Instr) : Laws.WordFields.Statement i := by
  cases i with
  | nop d => exact Laws.WordFields.nop d
  | obfaFwd d => exact Laws.WordFields.obfaFwd d
  | obfaInv d => exact Laws.WordFields.obfaInv d
  | obfb d => exact Laws.WordFields.obfb d
  | frame d => exact Laws.WordFields.frame d
  | unframe d => exact Laws.WordFields.unframe d
  | aeadEnc d => exact Laws.WordFields.aeadEnc d
  | aeadDec d => exact Laws.WordFields.aeadDec d
  | encode d => exact Laws.WordFields.encode d
  | decode d => exact Laws.WordFields.decode d

/-- R72, R73: no command's word is illegal, with or without `DIAG`. -/
theorem legalWord_encode (i : Instr) : legalWord (encode i) = true := by
  obtain ⟨-, -, -, hlegal⟩ := wordFields i
  exact hlegal

/-- R70: `RSV`, `DIAG` and `OP`, one after the other, are the whole word. -/
theorem fields_append (v : Word) : (rsvField v ++ BitVec.ofBool (diagField v)) ++ opField v = v := by
  have hdiag : BitVec.ofBool (diagField v) = v.extractLsb' 4 1 := by
    ext k hk
    obtain rfl : k = 0 := by omega
    simp [diagField]
  rw [rsvField, hdiag, opField, BitVec.extractLsb'_append_extractLsb'_eq_extractLsb' (show 5 = 4 + 1 from rfl),
    BitVec.extractLsb'_append_extractLsb'_eq_extractLsb' (show 4 = 0 + 4 from rfl)]
  exact BitVec.extractLsb'_eq_self

/-- The decoder undoes the encoder. -/
theorem decode_encode (i : Instr) : decode (encode i) = .ok i := by
  obtain ⟨hop, hdiag, hrsv, -⟩ := wordFields i
  exact decode_eq_ok.mpr ⟨hrsv, by rw [hop, hdiag, commandOf_opcodeOf]⟩

/-- No other word decodes to a command, since no bit of the word is outside the three fields. -/
theorem eq_encode_of_decode {v : Word} {i : Instr} (h : decode v = .ok i) : v = encode i := by
  obtain ⟨hrsv, hcommand⟩ := decode_eq_ok.mp h
  obtain ⟨hop, hdiag⟩ := commandOf_eq_some hcommand
  calc
    v = (rsvField v ++ BitVec.ofBool (diagField v)) ++ opField v := (fields_append v).symm
    _ = ((0 : BitVec 27) ++ BitVec.ofBool (diagOf i)) ++ opcodeOf i := by rw [hrsv, hdiag, hop]
    _ = encode i := rfl

/-- R72 by its two checks. -/
theorem legalWord_eq_false (v : Word) : legalWord v = false ↔ 10 ≤ v.toNat % 16 ∨ v.toNat / 32 ≠ 0 := by
  rw [legalWord, Bool.and_eq_false_iff, decide_eq_false_iff_not, decide_eq_false_iff_not, not_le, Nat.lt_iff_add_one_le]

/-- R72, R76: the decoder refuses exactly the illegal words. -/
theorem decode_error_iff (v : Word) : (∃ e, decode v = .error e) ↔ legalWord v = false := by
  rw [legalWord_eq_false]
  constructor
  · rintro ⟨e, he⟩
    exact decode_error_fields he
  · intro hillegal
    cases h : decode v with
    | error e => exact ⟨e, rfl⟩
    | ok i =>
      obtain ⟨-, hop, hrsv⟩ := decode_ok_fields h
      omega

/-- Settles O2: decoding is a round trip in both directions. -/
theorem decodeAndEncodeAgreeOnEveryWord : Obligations.DecodeAndEncodeAgreeOnEveryWord :=
  ⟨fun _ i => ⟨eq_encode_of_decode, fun h => h ▸ decode_encode i⟩, decode_error_iff⟩

/-- Settles O1: each word of the table is the encoding of its row's command. -/
theorem decodeReadsTheTableOfCommandWords : Obligations.DecodeReadsTheTableOfCommandWords :=
  ⟨decode_encode (.nop false), decode_encode (.nop true),
    decode_encode (.obfaFwd false), decode_encode (.obfaFwd true),
    decode_encode (.obfaInv false), decode_encode (.obfaInv true),
    decode_encode (.obfb false), decode_encode (.obfb true),
    decode_encode (.frame false), decode_encode (.frame true),
    decode_encode (.unframe false), decode_encode (.unframe true),
    decode_encode (.aeadEnc false), decode_encode (.aeadEnc true),
    decode_encode (.aeadDec false), decode_encode (.aeadDec true),
    decode_encode (.encode false), decode_encode (.encode true),
    decode_encode (.decode false), decode_encode (.decode true)⟩

end Sys2Proof
end

section
/-! `DIAG` (spec/30_encoding.md R73): the same command with another hint bit. -/

namespace Sys2Proof

/-- The same command with the hint bit `d`. -/
def Instr.withDiag (d : Bool) : Instr → Instr
  | .nop _ => .nop d
  | .obfaFwd _ => .obfaFwd d
  | .obfaInv _ => .obfaInv d
  | .obfb _ => .obfb d
  | .frame _ => .frame d
  | .unframe _ => .unframe d
  | .aeadEnc _ => .aeadEnc d
  | .aeadDec _ => .aeadDec d
  | .encode _ => .encode d
  | .decode _ => .decode d

theorem commandOf_opcodeOf_withDiag (i : Instr) (d : Bool) : commandOf (opcodeOf i) d = some (i.withDiag d) := by
  cases i <;> rfl

/-- R70, R71: commands with one `OP` differ in `DIAG` only. -/
theorem eq_withDiag_of_opcodeOf_eq {i j : Instr} (h : opcodeOf i = opcodeOf j) : j = i.withDiag (diagOf j) := by
  have hj := commandOf_opcodeOf j
  rw [← h, commandOf_opcodeOf_withDiag] at hj
  exact (Option.some.inj hj).symm

end Sys2Proof

namespace Sys2Proof.Machine

open Sys2Proof.Safety

@[simp] theorem executes_withDiag (i : Instr) (d : Bool) : executes (i.withDiag d) = executes i := by
  cases i <;> rfl

@[simp] theorem commandResult_withDiag (p : Params) (x : Buf) (i : Instr) (d : Bool) :
    commandResult p x (i.withDiag d) = commandResult p x i := by
  cases i <;> rfl

@[simp] theorem commandOutputs_withDiag (p : Params) (x : Buf) (i : Instr) (d : Bool) :
    commandOutputs p x (i.withDiag d) = commandOutputs p x i := by
  cases i <;> rfl

/-- R166: only ENCODE and DECODE have pipeline stages. -/
theorem commandOutputs_of_opcodeOf_ne (p : Params) (x : Buf) {i : Instr} (henc : opcodeOf i ≠ 0x8)
    (hdec : opcodeOf i ≠ 0x9) : commandOutputs p x i = [] := by
  cases i with
  | encode d => exact absurd rfl henc
  | decode d => exact absurd rfl hdec
  | _ => rfl

/-- `DIAG` enters a finished command through its taps alone. -/
theorem finishCommand_withDiag (i : Instr) (d : Bool) (x : Buf) (s : State) :
    finishCommand i x s = { finishCommand (i.withDiag d) x s with obs := (finishCommand i x s).obs } := by
  simp [finishCommand]

/-- A command without pipeline stages has no taps for `DIAG` to enable. -/
theorem finishCommand_withDiag_eq {i : Instr} {x : Buf} {s : State} (hstage : commandOutputs s.hw x i = [])
    (d : Bool) : finishCommand i x s = finishCommand (i.withDiag d) x s := by
  simp [finishCommand, hstage, taps]

/-- R73: the same command with another hint bit ends in the same way, but for the trace of a pipeline command. -/
theorem ExecTo.withDiag {i : Instr} {s t : State} (h : ExecTo i s t) (d : Bool) :
    ∃ u, exec (i.withDiag d) s = .next u ∧ t = { u with obs := t.obs } ∧
      (opcodeOf i ≠ 0x8 → opcodeOf i ≠ 0x9 → t = u) := by
  cases h with
  | nop e hi =>
    subst hi
    exact ⟨_, exec_nop d s, rfl, fun _ _ => rfl⟩
  | capacity hi hlong => exact ⟨_, exec_capacity (by simpa using hi) hlong, rfl, fun _ _ => rfl⟩
  | unwritten hi hle hun => exact ⟨_, exec_unwritten (by simpa using hi) hle hun, rfl, fun _ _ => rfl⟩
  | finished x hi hx =>
    exact ⟨_, exec_input (by simpa using hi) hx, finishCommand_withDiag i d x s,
      fun henc hdec => finishCommand_withDiag_eq (commandOutputs_of_opcodeOf_ne s.hw x henc hdec) d⟩

end Sys2Proof.Machine

namespace Sys2Proof.Safety

open Sys2Proof.Machine

/-- Settles O35: every command's word is legal, and two commands with one `OP` are one command with two hint bits. -/
theorem diagChangesNothingButTheTrace : Obligations.DiagChangesNothingButTheTrace := by
  refine ⟨legalWord_encode, fun i j s hop => ?_⟩
  obtain ⟨t, ht, hto⟩ := exec_answers i s
  obtain ⟨u, hu, hobs, hstage⟩ := hto.withDiag (diagOf j)
  rw [← eq_withDiag_of_opcodeOf_eq hop] at hu
  exact ⟨t, u, ht, hu, hobs, hstage⟩

end Sys2Proof.Safety
end

section
/-! The frame and the PKT bytes (spec/30_encoding.md R80 to R82): what FRAME writes, and what encode answers in
terms of the sealed frame. -/

namespace Sys2Proof.Machine

open Sys2Proof.Safety

/-- R123: the one frame that FRAME can answer, and when it does. -/
theorem frame_eq_ok_iff {p : Params} {x f : Buf} :
    frame p x = .ok f ↔
      4 + (p.codec.compress x).length ≤ p.maxLen.toNat ∧ f = be32 x.length ++ p.codec.compress x := by
  rcases frame_cases p x with ⟨hlong, hr⟩ | ⟨hfits, hr⟩
  · simp [hr, hlong]
  · simp [hr, hfits, eq_comm]

/-- R144: the one ciphertext that AEAD_ENC can answer, and when it does. -/
theorem aeadEnc_eq_ok_iff {p : Params} {x c : Buf} :
    aeadEnc p x = .ok c ↔ x.length + 16 ≤ p.maxLen.toNat ∧ c = p.cipher.sealBytes p.key p.iv [] x := by
  rcases aeadEnc_cases p x with ⟨hlong, hr⟩ | ⟨hfits, hr⟩
  · simp [hr, hlong]
  · simp [hr, hfits, eq_comm]

/-- R174: with no stage left the buffer itself is the result. -/
theorem pipeline_nil_eq_ok_iff {p : Params} {b y : Buf} : pipeline p [] b = .ok y ↔ y = b := by
  simp [pipeline, eq_comm]

/-- R174: a pipeline succeeds when its first stage does and the others do on what that stage answers. -/
theorem pipeline_cons_eq_ok_iff {p : Params} {n : StageNo} {f : StageFn} {rest : List (StageNo × StageFn)}
    {b y : Buf} :
    pipeline p ((n, f) :: rest) b = .ok y ↔ ∃ z, applyStage p f b = .ok z ∧ pipeline p rest z = .ok y := by
  cases hr : applyStage p f b <;> simp [pipeline, hr]

/-- What stage 4 of ENCODE does to the ciphertext, R171. -/
def encodeStage4 (lay : Layering) (z : Buf) : Buf :=
  match lay with
  | .aOuter => obfaInv z
  | .aInner => obfb z

/-- The ciphertext `z` of R82: the frame of `x`, obfuscated and sealed. -/
def sealedFrame (p : Params) (x : Buf) : Buf :=
  p.cipher.sealBytes p.key p.iv [] (encodeStage2 p.layering (be32 x.length ++ p.codec.compress x))

theorem encodeStage2_length (lay : Layering) (x : Buf) : (encodeStage2 lay x).length = x.length := by
  cases lay <;> simp [encodeStage2]

theorem encodeStage4_length (lay : Layering) (z : Buf) : (encodeStage4 lay z).length = z.length := by
  cases lay <;> simp [encodeStage4]

/-- R80, R81: the frame's four length bytes and the tag's sixteen are what the artifact adds to the stream. -/
theorem sealedFrame_length (p : Params) (x : Buf) :
    (sealedFrame p x).length = (p.codec.compress x).length + 20 := by
  rw [sealedFrame, p.cipher.seal_length, encodeStage2_length, List.length_append, be32_length, tagLen]
  omega

/-- R171, R172: of the stages of ENCODE only FRAME and AEAD_ENC can fail; stages 2 and 4 obfuscate. -/
theorem encodeBytes_eq_ok_iff_stages {p : Params} {x y : Buf} :
    encodeBytes p x = .ok y ↔ ∃ f z, frame p x = .ok f ∧ aeadEnc p (encodeStage2 p.layering f) = .ok z ∧
      y = encodeStage4 p.layering z := by
  rw [encodeBytes]
  cases p.layering <;>
    simp [encodeStages, pipeline_cons_eq_ok_iff, pipeline_nil_eq_ok_iff, applyStage, encodeStage2, encodeStage4]

/-- R172: encode answers the obfuscated sealed frame if that fits, and nothing else. -/
theorem encodeBytes_eq_ok_iff {p : Params} {x y : Buf} :
    encodeBytes p x = .ok y ↔ (p.codec.compress x).length + 20 ≤ p.maxLen.toNat ∧
      y = encodeStage4 p.layering (sealedFrame p x) := by
  simp only [encodeBytes_eq_ok_iff_stages, frame_eq_ok_iff, aeadEnc_eq_ok_iff]
  constructor
  · rintro ⟨_, _, ⟨-, rfl⟩, ⟨hfits, rfl⟩, rfl⟩
    rw [encodeStage2_length, List.length_append, be32_length] at hfits
    exact ⟨by omega, rfl⟩
  · rintro ⟨hfits, rfl⟩
    refine ⟨_, _, ⟨by omega, rfl⟩, ⟨?_, rfl⟩, rfl⟩
    rw [encodeStage2_length, List.length_append, be32_length]
    omega

/-- R103 by output index. -/
theorem obfaInv_getElem? {z : Buf} {j : Nat} {b : Byte} (hj : j < z.length)
    (hb : z[z.length - 1 - j]? = some b) :
    (obfaInv z)[j]? = some (b ^^^ keyA (z.length - 1 - j) z.length) := by
  obtain ⟨_, rfl⟩ := List.getElem?_eq_some_iff.mp hb
  exact List.getElem?_eq_some_iff.mpr ⟨by simpa using hj, obfaInv_lane z j hj⟩

/-- R104 by output index. -/
theorem obfb_getElem? {z : Buf} {j : Nat} {b : Byte} (hb : z[j]? = some b) :
    (obfb z)[j]? = some (b ^^^ keyB j z.length) := by
  obtain ⟨hj, rfl⟩ := List.getElem?_eq_some_iff.mp hb
  exact List.getElem?_eq_some_iff.mpr ⟨by simpa using hj, obfb_lane z j hj⟩

end Sys2Proof.Machine

namespace Sys2Proof.Safety

open Sys2Proof.Machine

/-- Settles O20: FRAME has the result that `frame_cases` gives, and `be32` writes out the four bytes. -/
theorem frameWritesPrefixAndStream : Obligations.FrameWritesPrefixAndStream := by
  intro d s
  refine ⟨fun x hx hfits => ?_, fun x hx htoo_long => ?_, exec_oversized rfl⟩
  · exact exec_stage_succeeds (i := .frame d) rfl hx rfl (frame_eq_ok_iff.mpr ⟨hfits, rfl⟩)
  · rcases frame_cases s.hw x with ⟨-, hr⟩ | ⟨hfits, -⟩
    · exact exec_stage_fails (i := .frame d) rfl hx rfl hr
    · omega

/-- Settles O45: the ciphertext is `sealedFrame`, and the layering says which obfuscator stage 4 applies to it. -/
theorem pktBytesHaveTheLayoutOfTheLayering : Obligations.PktBytesHaveTheLayoutOfTheLayering := by
  intro p x y hy
  obtain ⟨-, rfl⟩ := encodeBytes_eq_ok_iff.mp hy
  have hpos := p.codec.compress_pos x
  have hlen := sealedFrame_length p x
  refine ⟨sealedFrame p x, encodeStage4_length .., hlen, ?_, fun hlay => ?aOuter, fun hlay => ?aInner⟩
  · rw [encodeStage4_length]
    omega
  case aOuter =>
    rw [hlay]
    exact ⟨by rw [sealedFrame, hlay, encodeStage2], fun j b hb hj => obfaInv_getElem? hj hb⟩
  case aInner =>
    rw [hlay]
    exact ⟨by rw [sealedFrame, hlay, encodeStage2], fun j b hb => obfb_getElem? hb⟩

end Sys2Proof.Safety
end

section
/-! The obfuscators (spec/40_obfuscator.md R100 to R107): which byte each command writes where, and what two of them
in a row do. A lane and its mirror, `i` and `L − 1 − i`, are what formula A exchanges. -/

namespace Sys2Proof.Machine

open Sys2Proof.Safety

/-! ### Lanes by input index -/

/-- R102 by output index. -/
theorem obfaFwd_getElem? {x : Buf} {i : Nat} {b : Byte} (hi : i < x.length)
    (hb : x[x.length - 1 - i]? = some b) : (obfaFwd x)[i]? = some (b ^^^ keyA i x.length) := by
  obtain ⟨_, rfl⟩ := List.getElem?_eq_some_iff.mp hb
  exact List.getElem?_eq_some_iff.mpr ⟨by simpa using hi, obfaFwd_lane x i hi⟩

/-- R102 by input index: byte `i` goes to the mirror lane, with the keystream of that lane. -/
theorem obfaFwd_mirror {x : Buf} {i : Nat} {b : Byte} (hb : x[i]? = some b) :
    (obfaFwd x)[x.length - 1 - i]? = some (b ^^^ keyA (x.length - 1 - i) x.length) := by
  obtain ⟨hi, -⟩ := List.getElem?_eq_some_iff.mp hb
  have hmirror : x.length - 1 - (x.length - 1 - i) = i := by omega
  exact obfaFwd_getElem? (by omega) (by rwa [hmirror])

/-- R103 by input index: byte `i` goes to the mirror lane, with the keystream of lane `i` itself. -/
theorem obfaInv_mirror {x : Buf} {i : Nat} {b : Byte} (hb : x[i]? = some b) :
    (obfaInv x)[x.length - 1 - i]? = some (b ^^^ keyA i x.length) := by
  obtain ⟨hi, -⟩ := List.getElem?_eq_some_iff.mp hb
  have hmirror : x.length - 1 - (x.length - 1 - i) = i := by omega
  have hlane := obfaInv_getElem? (z := x) (j := x.length - 1 - i) (by omega) (by rwa [hmirror])
  rwa [hmirror] at hlane

/-! ### The commands -/

/-- A stage command whose function `f` never fails and keeps the length ends as R162 and R163 say, whatever `Lanes`
states of the bytes of `f`; `CAPACITY` is left as its only failure. -/
theorem exec_total_stage {i : Instr} {f : Buf → Buf} {Lanes : Buf → Buf → Prop} (s : State) (hi : executes i = true)
    (hstage : ∀ x, commandOutputs s.hw x i = []) (hr : ∀ x, commandResult s.hw x i = .ok (f x))
    (hlen : ∀ x, (f x).length = x.length) (hlanes : ∀ x, Lanes x (f x)) :
    (∀ x, HasInput s x → ∃ (t : State) (y : Buf), exec i s = .next t ∧ Succeeded s t y ∧
      InputSideKept s t ∧ TraceKept s t ∧ y.length = x.length ∧ Lanes x y) ∧
    (s.hw.maxLen.toNat < s.inLen.toNat → ∃ t, exec i s = .next t ∧ Failed s t .capacity 0 ∧
      InputSideKept s t ∧ TraceKept s t) := by
  constructor
  · intro x hx
    obtain ⟨t, ht, hkept, htrace, hdone⟩ := exec_stage_succeeds hi hx (hstage x) (hr x)
    exact ⟨t, f x, ht, hdone, hkept, htrace, hlen x, hlanes x⟩
  · intro hlong
    obtain ⟨t, ht, hkept, htrace, hfailed⟩ := exec_oversized hi hlong
    exact ⟨t, ht, hfailed, hkept, htrace⟩

/-! ### Two obfuscators in a row -/

/-- Two buffers of one length are equal if the one has every byte of the other. -/
theorem eq_of_lanes {x y : Buf} (hlen : y.length = x.length)
    (hlanes : ∀ (i : Nat) (hi : i < x.length), y[i]? = some x[i]) : y = x :=
  ((List.prefix_iff_getElem?.mpr hlanes).eq_of_length hlen.symm).symm

/-- R105: the inverse XORs each mirrored byte with the keystream that the forward direction gave it. -/
theorem obfaInv_obfaFwd (x : Buf) : obfaInv (obfaFwd x) = x := by
  refine eq_of_lanes (by simp) fun i hi => ?_
  have hb := List.getElem?_eq_getElem hi
  have hlane := obfaInv_getElem? (z := obfaFwd x) (j := i) (by simpa using hi) (by simpa using obfaFwd_mirror hb)
  rwa [obfaFwd_length, xor_cancel_right] at hlane

/-- R105, the other order. -/
theorem obfaFwd_obfaInv (x : Buf) : obfaFwd (obfaInv x) = x := by
  refine eq_of_lanes (by simp) fun i hi => ?_
  have hb := List.getElem?_eq_getElem hi
  have hlane := obfaFwd_getElem? (x := obfaInv x) (i := i) (by simpa using hi) (by simpa using obfaInv_mirror hb)
  rwa [obfaInv_length, xor_cancel_right] at hlane

/-- R106: both rounds XOR a byte with the same keystream byte. -/
theorem obfb_obfb (x : Buf) : obfb (obfb x) = x := by
  refine eq_of_lanes (by simp) fun i hi => ?_
  have hb := List.getElem?_eq_getElem hi
  have hlane := obfb_getElem? (obfb_getElem? hb)
  rwa [obfb_length, xor_cancel_right] at hlane

/-- R106: the last byte of a non-empty buffer is XORed with `kB(L − 1, L)` = 1. -/
theorem obfb_ne_self {x : Buf} (hx : x ≠ []) : obfb x ≠ x := by
  intro hself
  have hpos : 0 < x.length := List.length_pos_of_ne_nil hx
  have hlast := obfb_lane x (x.length - 1) (by omega)
  have hflip : x[x.length - 1] ^^^ 1 = x[x.length - 1] := by
    rw [keyB_last x.length hpos] at hlast
    simpa only [hself] using hlast.symm
  exact absurd (xor_left_eq_self_iff.mp hflip) (by decide)

/-- R107: the second round reads byte `i` back from the mirror lane and adds the keystream of lane `i`. -/
theorem obfaFwd_obfaFwd_getElem? {x : Buf} {i : Nat} {b : Byte} (hb : x[i]? = some b) :
    (obfaFwd (obfaFwd x))[i]? = some (b ^^^ keyA (x.length - 1 - i) x.length ^^^ keyA i x.length) := by
  obtain ⟨hi, -⟩ := List.getElem?_eq_some_iff.mp hb
  have hlane := obfaFwd_getElem? (x := obfaFwd x) (i := i) (by simpa using hi) (by simpa using obfaFwd_mirror hb)
  rwa [obfaFwd_length] at hlane

end Sys2Proof.Machine

namespace Sys2Proof.Safety

open Sys2Proof.Machine

/-- Settles O17: OBFA_FWD is a total stage with the lanes of `obfaFwd_getElem?`. -/
theorem obfaFwdWritesTheReversedReadXor : Obligations.ObfaFwdWritesTheReversedReadXor :=
  fun d s => exec_total_stage (i := .obfaFwd d) s rfl (fun _ => rfl) (fun _ => rfl) obfaFwd_length
    fun _ _ _ hi hb => obfaFwd_getElem? hi hb

/-- Settles O18: OBFA_INV is a total stage with the lanes of `obfaInv_mirror`. -/
theorem obfaInvWritesTheReversedWriteXor : Obligations.ObfaInvWritesTheReversedWriteXor :=
  fun d s => exec_total_stage (i := .obfaInv d) s rfl (fun _ => rfl) (fun _ => rfl) obfaInv_length
    fun _ _ _ hb => obfaInv_mirror hb

/-- Settles O19: OBFB is a total stage with the lanes of `obfb_getElem?`. -/
theorem obfbWritesTheLinearXor : Obligations.ObfbWritesTheLinearXor :=
  fun d s => exec_total_stage (i := .obfb d) s rfl (fun _ => rfl) (fun _ => rfl) obfb_length
    fun _ _ _ hb => obfb_getElem? hb

/-- Settles O37: each direction undoes the other lane by lane. -/
theorem formulaADirectionsAreInverses : Obligations.FormulaADirectionsAreInverses :=
  fun x => ⟨obfaInv_obfaFwd x, obfaFwd_obfaInv x⟩

/-- Settles O38: two rounds give `x` back, and one round of a non-empty `x` is not `x`. -/
theorem formulaBIsAnInvolution : Obligations.FormulaBIsAnInvolution :=
  ⟨obfb_obfb, fun x hx hidem => obfb_ne_self hx (hidem.symm.trans (obfb_obfb x))⟩

/-- Settles O39: the lane after two rounds, and the two zero bytes of the rule. -/
theorem forwardFormulaATwiceIsNotTheIdentity : Obligations.ForwardFormulaATwiceIsNotTheIdentity :=
  ⟨fun _ _ _ hb => obfaFwd_obfaFwd_getElem? hb, by decide⟩

end Sys2Proof.Safety
end

section
/-! UNFRAME (spec/41_framer.md R125 to R128): the one condition under which it answers a buffer, in terms of the four
length bytes and the stream after them. Every other input is `FORMAT`, so the rejections follow from the same lemma. -/

namespace Sys2Proof.Machine

open Sys2Proof.Safety

/-- R14: the four length bytes as a number. -/
theorem unbe32_four_bytes (b0 b1 b2 b3 : Byte) :
    unbe32 [b0, b1, b2, b3] = b0.toNat * 16777216 + b1.toNat * 65536 + b2.toNat * 256 + b3.toNat := by
  simp only [unbe32, List.foldl_cons, List.foldl_nil]
  omega

/-- R125: a frame shorter than its length field. -/
theorem unframe_of_short {p : Params} {x : Buf} (h : x.length < 4) : unframe p x = .err .format 0 := if_pos h

/-- R126: `FORMAT` is the only error of UNFRAME. -/
theorem unframe_eq_format {p : Params} {x : Buf} (h : ∀ y, unframe p x ≠ .ok y) : unframe p x = .err .format 0 := by
  rcases unframe_cases p x with hr | ⟨y, -, hr, -⟩
  · exact hr
  · exact absurd hr (h y)

/-- R126: what UNFRAME answers to a length field and a stream, and when it does. -/
theorem unframe_append_eq_ok_iff {p : Params} {pre strm y : Buf} (hpre : pre.length = 4) :
    unframe p (pre ++ strm) = .ok y ↔ ∃ k, p.codec.inflate strm = .ok y k ∧ y.length = unbe32 pre ∧
      y.length ≤ p.maxLen.toNat ∧ (k = strm.length ∨ p.trailing = .ignore) := by
  have hstream : unframe p (pre ++ strm) = unframeStream p (unbe32 pre) strm := by
    have hlong : ¬(pre ++ strm).length < 4 := by simp [hpre]
    rw [unframe, if_neg hlong, List.take_left' hpre, List.drop_left' hpre]
  rw [hstream]
  constructor
  · intro hok
    rcases unframeStream_cases p (unbe32 pre) strm with hr | ⟨z, k, hr, hn, hi, hz, hk⟩
    · cases hr.symm.trans hok
    · cases hr.symm.trans hok
      exact ⟨k, hi, hz, hz ▸ hn, hk⟩
  · rintro ⟨k, hi, hy, hle, hk⟩
    exact unframeStream_ok (hy ▸ hle) hi hy hk

/-- R121, R126: `COMPRESS(x)` after a length field decodes to `x` or to nothing, and then the field is `|x|`. -/
theorem unframe_append_compress_eq_ok_iff {p : Params} {pre x y : Buf} (hpre : pre.length = 4) :
    unframe p (pre ++ p.codec.compress x) = .ok y ↔ y = x ∧ x.length = unbe32 pre ∧ x.length ≤ p.maxLen.toNat := by
  rw [unframe_append_eq_ok_iff hpre, p.codec.inflate_compress]
  constructor
  · rintro ⟨_, ⟨⟩, hlen, hle, -⟩
    exact ⟨rfl, hlen, hle⟩
  · rintro ⟨rfl, hlen, hle⟩
    exact ⟨_, rfl, hlen, hle, .inl rfl⟩

end Sys2Proof.Machine

namespace Sys2Proof.Safety

open Sys2Proof.Machine

/-- Settles O21: the hypotheses are the condition of `unframe_append_eq_ok_iff`. -/
theorem unframeReturnsTheDecodedBytes : Obligations.UnframeReturnsTheDecodedBytes := by
  intro d s b0 b1 b2 b3 rest y k hx hlen hle hi hk
  have hr : unframe s.hw ([b0, b1, b2, b3] ++ rest) = .ok y :=
    (unframe_append_eq_ok_iff rfl).mpr ⟨k, hi, hlen.trans (unbe32_four_bytes b0 b1 b2 b3).symm, hle, hk⟩
  obtain ⟨t, ht, hkept, htrace, hdone⟩ := exec_stage_succeeds (i := .unframe d) rfl hx rfl hr
  exact ⟨t, ht, hdone, hkept, htrace⟩

/-- R125, R126: each row of the rejected inputs breaks one condition of `unframe_append_eq_ok_iff`. -/
theorem unframe_rejects {p : Params} {b0 b1 b2 b3 : Byte} {rest : Buf}
    (hrow : p.maxLen.toNat < b0.toNat * 16777216 + b1.toNat * 65536 + b2.toNat * 256 + b3.toNat ∨
      p.codec.inflate rest = .malformed ∨ p.codec.inflate rest = .truncated ∨
      ∃ (y : Buf) (k : Nat), p.codec.inflate rest = .ok y k ∧
        (y.length ≠ b0.toNat * 16777216 + b1.toNat * 65536 + b2.toNat * 256 + b3.toNat ∨
          (k < rest.length ∧ p.trailing = .reject))) :
    unframe p ([b0, b1, b2, b3] ++ rest) = .err .format 0 := by
  refine unframe_eq_format fun y hy => ?_
  obtain ⟨k, hi, hlen, hle, hk⟩ := (unframe_append_eq_ok_iff rfl).mp hy
  rw [unbe32_four_bytes] at hlen
  rcases hrow with hlong | hmalformed | htruncated | ⟨z, j, hz, hother | ⟨htrailing, hreject⟩⟩
  · omega
  · cases hmalformed.symm.trans hi
  · cases htruncated.symm.trans hi
  · cases hz.symm.trans hi
    exact hother hlen
  · cases hz.symm.trans hi
    rcases hk with hall | hignore
    · omega
    · cases hreject.symm.trans hignore

/-- Settles O22: an input shorter than the length field, or one of the rows of `unframe_rejects`. -/
theorem unframeFailsWithFormat : Obligations.UnframeFailsWithFormat := by
  intro d s x hx hbad
  have hr : unframe s.hw x = .err .format 0 := by
    rcases hbad with hshort | ⟨b0, b1, b2, b3, rest, rfl, hrow⟩
    · exact unframe_of_short hshort
    · exact unframe_rejects hrow
  obtain ⟨t, ht, hkept, htrace, hfailed⟩ := exec_stage_fails (i := .unframe d) rfl hx rfl hr
  exact ⟨t, ht, hfailed, hkept, htrace⟩

/-- Settles O40: the frame is `BE32(|x|)` and the stream, and the codec's roundtrip law decodes it. -/
theorem unframeUndoesFrame : Obligations.UnframeUndoesFrame := by
  intro p x hx hfits
  have hprefix : unbe32 (be32 x.length) = x.length := unbe32_be32 _ (hx.trans_lt p.maxLen.isLt)
  refine ⟨be32 x.length ++ p.codec.compress x, frame_eq_ok_iff.mpr ⟨hfits, rfl⟩, ?_, ?_, ?_⟩
  · rw [List.take_left' (be32_length _), hprefix]
  · rw [List.drop_left' (be32_length _), List.length_append, be32_length, Nat.add_sub_cancel_left]
    exact p.codec.inflate_compress x
  · exact (unframe_append_compress_eq_ok_iff (be32_length _)).mpr ⟨rfl, hprefix.symm, hx⟩

/-- Settles O41: the stream decodes to `x` alone, whose length the length field does not hold. -/
theorem corruptedPrefixAlwaysFails : Obligations.CorruptedPrefixAlwaysFails := by
  intro p x n _ hn hne
  refine unframe_eq_format fun y hy => ?_
  obtain ⟨-, hlen, -⟩ := (unframe_append_compress_eq_ok_iff (be32_length n)).mp hy
  rw [unbe32_be32 n hn] at hlen
  exact hne hlen.symm

end Sys2Proof.Safety
end

section
/-! AEAD_DEC (spec/42_aead.md R143 to R146): its answer in each of the three cases of R145, and which ciphertexts open
when the cipher has the property `TAMPER`. -/

namespace Sys2Proof.Machine

open Sys2Proof.Safety

/-- R145: the length is checked before the cipher is asked. -/
theorem aeadDec_of_short {p : Params} {x : Buf} (h : x.length < 16) : aeadDec p x = .err .format 0 := if_pos h

/-- R145: a ciphertext whose tag does not hold. -/
theorem aeadDec_of_open_none {p : Params} {x : Buf} (hlen : 16 ≤ x.length)
    (hopen : p.cipher.openBytes p.key p.iv [] x = none) : aeadDec p x = .err .auth 0 := by
  rcases aeadDec_cases p x with ⟨hshort, -⟩ | ⟨-, -, hr⟩ | ⟨-, y, hy, -⟩
  · omega
  · exact hr
  · cases hopen.symm.trans hy

/-- R145, R146: the plaintexts that AEAD_DEC can answer, and when it answers one. -/
theorem aeadDec_eq_ok_iff {p : Params} {x y : Buf} :
    aeadDec p x = .ok y ↔ 16 ≤ x.length ∧ p.cipher.openBytes p.key p.iv [] x = some y := by
  rcases aeadDec_cases p x with ⟨hshort, hr⟩ | ⟨-, hopen, hr⟩ | ⟨hlen, z, hopen, hr⟩
  · simp [hr, hshort]
  · simp [hr, hopen]
  · simp [hr, hlen, hopen]

/-- R144, R145, R142: a sealed buffer has at least the 16 bytes of its tag, and opens. -/
theorem aeadDec_sealBytes (p : Params) (x : Buf) : aeadDec p (p.cipher.sealBytes p.key p.iv [] x) = .ok x := by
  refine aeadDec_eq_ok_iff.mpr ⟨?_, p.cipher.open_of_seal ..⟩
  rw [p.cipher.seal_length]
  exact Nat.le_add_left ..

/-- R143, R145: under `TAMPER`, AEAD_DEC answers the plaintext of a sealed buffer, and `AUTH` to every other. -/
theorem aeadDec_of_tamper {p : Params} {c : Buf} (htamper : Tamper p) (hlen : 16 ≤ c.length) :
    (∃ x, p.cipher.sealBytes p.key p.iv [] x = c ∧ aeadDec p c = .ok x) ∨
      ((∀ x, p.cipher.sealBytes p.key p.iv [] x ≠ c) ∧ aeadDec p c = .err .auth 0) := by
  by_cases hsealed : ∃ x, p.cipher.sealBytes p.key p.iv [] x = c
  · obtain ⟨x, rfl⟩ := hsealed
    exact .inl ⟨x, rfl, aeadDec_sealBytes p x⟩
  · have hnone : ∀ x, p.cipher.sealBytes p.key p.iv [] x ≠ c := not_exists.mp hsealed
    exact .inr ⟨hnone, aeadDec_of_open_none hlen (htamper c hlen hnone)⟩

end Sys2Proof.Machine

namespace Sys2Proof.Safety

open Sys2Proof.Machine

/-- Settles O24: one answer of AEAD_DEC for each case of R145, and the cipher's law gives the plaintext's length. -/
theorem aeadDecVerifiesBeforeAnyOutput : Obligations.AeadDecVerifiesBeforeAnyOutput := by
  intro d s
  refine ⟨fun x hx hshort => ?short, fun x hx hlen hopen => ?rejected, fun x y hx hlen hopen => ?opened,
    exec_oversized rfl⟩
  case short => exact exec_stage_fails (i := .aeadDec d) rfl hx rfl (aeadDec_of_short hshort)
  case rejected => exact exec_stage_fails (i := .aeadDec d) rfl hx rfl (aeadDec_of_open_none hlen hopen)
  case opened =>
    have hr : aeadDec s.hw x = .ok y := aeadDec_eq_ok_iff.mpr ⟨hlen, hopen⟩
    obtain ⟨t, ht, hkept, htrace, hdone⟩ := exec_stage_succeeds (i := .aeadDec d) rfl hx rfl hr
    exact ⟨t, ht, hkept, htrace, hdone, s.hw.cipher.open_length _ _ _ _ _ hlen hopen⟩

/-- Settles O25: the two answers of `aeadDec_of_tamper` are the two outcomes of the command. -/
theorem underTamperOnlySealedInputsOpen : Obligations.UnderTamperOnlySealedInputsOpen := by
  intro d s c htamper hx hlen
  rcases aeadDec_of_tamper htamper hlen with ⟨x, hseal, hr⟩ | ⟨hnone, hr⟩
  · obtain ⟨t, ht, hkept, htrace, hdone⟩ := exec_stage_succeeds (i := .aeadDec d) rfl hx rfl hr
    exact ⟨t, ht, hkept, htrace, .inl ⟨x, hseal, hdone⟩⟩
  · obtain ⟨t, ht, hkept, htrace, hfailed⟩ := exec_stage_fails (i := .aeadDec d) rfl hx rfl hr
    exact ⟨t, ht, hkept, htrace, .inr ⟨hnone, hfailed⟩⟩

/-- Settles O42: the ciphertext is the sealed input, which `aeadDec_sealBytes` opens. -/
theorem aeadDecUndoesAeadEnc : Obligations.AeadDecUndoesAeadEnc :=
  fun p x hfits => ⟨_, aeadEnc_eq_ok_iff.mpr ⟨hfits, rfl⟩, p.cipher.seal_length .., aeadDec_sealBytes p x⟩

end Sys2Proof.Safety
end

section
/-! The pipeline commands ENCODE and DECODE (spec/43_sequencer.md R171 to R181): which stages of a pipeline succeed on
an input, and what the command then leaves in `OUT`, `STATUS`, `W` and `OBS`. -/

namespace Sys2Proof.Machine

open Sys2Proof.Safety

/-! ### One way through a pipeline -/

/-- R172 to R174 as a relation: some stages, run on a buffer, have these outputs and end with this result. -/
inductive StagesTo (p : Params) : List (StageNo × StageFn) → Buf → List (StageNo × Buf) → Result → Prop where
  | done (b : Buf) : StagesTo p [] b [] (.ok b)
  | failed {n m : StageNo} {f : StageFn} {rest : List (StageNo × StageFn)} {b : Buf} {k : ErrKind}
      (h : applyStage p f b = .err k m) : StagesTo p ((n, f) :: rest) b [] (.err k n)
  | passed {n : StageNo} {f : StageFn} {rest : List (StageNo × StageFn)} {b y : Buf} {outs : List (StageNo × Buf)}
      {r : Result} (h : applyStage p f b = .ok y) (hrest : StagesTo p rest y outs r) :
      StagesTo p ((n, f) :: rest) b ((n, y) :: outs) r

theorem StagesTo.pipeline_eq {p : Params} {l : List (StageNo × StageFn)} {b : Buf} {outs : List (StageNo × Buf)}
    {r : Result} (h : StagesTo p l b outs r) : pipeline p l b = r := by
  induction h with
  | done b => rfl
  | failed h => simp [pipeline, h]
  | passed h _ ih => simpa [pipeline, h] using ih

theorem StagesTo.stageOutputs_eq {p : Params} {l : List (StageNo × StageFn)} {b : Buf} {outs : List (StageNo × Buf)}
    {r : Result} (h : StagesTo p l b outs r) : stageOutputs p l b = outs := by
  induction h with
  | done b => rfl
  | failed h => simp [stageOutputs, h]
  | passed h _ ih => simpa [stageOutputs, h] using ih

/-! ### The stages of ENCODE -/

/-- R80, R171: the obfuscated frame has the frame's length. -/
theorem encodeStage2_frame_length (p : Params) (x : Buf) :
    (encodeStage2 p.layering (be32 x.length ++ p.codec.compress x)).length = 4 + (p.codec.compress x).length := by
  rw [encodeStage2_length, List.length_append, be32_length]

theorem encode_fails_at_frame {p : Params} {x : Buf} {k : ErrKind} {m : StageNo} (hframe : frame p x = .err k m) :
    StagesTo p (encodeStages p.layering) x [] (.err k 1) := by
  cases p.layering <;> exact .failed hframe

theorem encode_fails_at_seal {p : Params} {x f : Buf} {k : ErrKind} {m : StageNo} (hframe : frame p x = .ok f)
    (hseal : aeadEnc p (encodeStage2 p.layering f) = .err k m) :
    StagesTo p (encodeStages p.layering) x [(1, f), (2, encodeStage2 p.layering f)] (.err k 3) := by
  revert hseal
  cases p.layering <;> exact fun hseal => .passed hframe (.passed rfl (.failed hseal))

theorem encode_passes {p : Params} {x f z : Buf} (hframe : frame p x = .ok f)
    (hseal : aeadEnc p (encodeStage2 p.layering f) = .ok z) :
    StagesTo p (encodeStages p.layering) x
      [(1, f), (2, encodeStage2 p.layering f), (3, z), (4, encodeStage4 p.layering z)]
      (.ok (encodeStage4 p.layering z)) := by
  revert hseal
  cases p.layering <;> exact fun hseal => .passed hframe (.passed rfl (.passed hseal (.passed rfl (.done _))))

/-! ### The stages of DECODE -/

theorem decodeStage1_length (lay : Layering) (x : Buf) : (decodeStage1 lay x).length = x.length := by
  cases lay <;> simp [decodeStage1]

theorem decodeStage3_length (lay : Layering) (x : Buf) : (decodeStage3 lay x).length = x.length := by
  cases lay <;> simp [decodeStage3]

theorem decode_fails_at_open {p : Params} {x : Buf} {k : ErrKind} {m : StageNo}
    (hopen : aeadDec p (decodeStage1 p.layering x) = .err k m) :
    StagesTo p (decodeStages p.layering) x [(1, decodeStage1 p.layering x)] (.err k 2) := by
  revert hopen
  cases p.layering <;> exact fun hopen => .passed rfl (.failed hopen)

theorem decode_fails_at_unframe {p : Params} {x z : Buf} {k : ErrKind} {m : StageNo}
    (hopen : aeadDec p (decodeStage1 p.layering x) = .ok z)
    (hunframe : unframe p (decodeStage3 p.layering z) = .err k m) :
    StagesTo p (decodeStages p.layering) x
      [(1, decodeStage1 p.layering x), (2, z), (3, decodeStage3 p.layering z)] (.err k 4) := by
  revert hopen hunframe
  cases p.layering <;> exact fun hopen hunframe => .passed rfl (.passed hopen (.passed rfl (.failed hunframe)))

theorem decode_passes {p : Params} {x z y : Buf} (hopen : aeadDec p (decodeStage1 p.layering x) = .ok z)
    (hunframe : unframe p (decodeStage3 p.layering z) = .ok y) :
    StagesTo p (decodeStages p.layering) x
      [(1, decodeStage1 p.layering x), (2, z), (3, decodeStage3 p.layering z), (4, y)] (.ok y) := by
  revert hopen hunframe
  cases p.layering <;>
    exact fun hopen hunframe => .passed rfl (.passed hopen (.passed rfl (.passed hunframe (.done _))))

/-! ### The commands -/

/-- R163, R176: a command whose stage outputs are `outs` and whose result is a buffer. -/
theorem exec_succeeds {i : Instr} {x y : Buf} {outs : List (StageNo × Buf)} {s : State} (hi : executes i = true)
    (hx : HasInput s x) (houts : commandOutputs s.hw x i = outs) (hr : commandResult s.hw x i = .ok y) :
    ∃ t, exec i s = .next t ∧ InputSideKept s t ∧ t.mf = s.mf ∧ Succeeded s t y ∧
      t.work = (outs.map Prod.snd).getLastD s.work ∧ t.obs = s.obs ++ taps (pipeOpOf i) (diagOf i) outs := by
  subst houts
  exact ⟨_, exec_input hi hx, finishCommand_inputSideKept i x s, finishCommand_mf i x s,
    finishCommand_succeeded hx hr, rfl, rfl⟩

/-- R163, R174, R176: a command whose stage outputs are `outs` and whose result is an error. -/
theorem exec_fails {i : Instr} {x : Buf} {outs : List (StageNo × Buf)} {s : State} {k : ErrKind} {n : StageNo}
    (hi : executes i = true) (hx : HasInput s x) (houts : commandOutputs s.hw x i = outs)
    (hr : commandResult s.hw x i = .err k n) :
    ∃ t, exec i s = .next t ∧ InputSideKept s t ∧ t.mf = s.mf ∧ Failed s t k.code n ∧
      t.work = (outs.map Prod.snd).getLastD s.work ∧ t.obs = s.obs ++ taps (pipeOpOf i) (diagOf i) outs := by
  subst houts
  exact ⟨_, exec_input hi hx, finishCommand_inputSideKept i x s, finishCommand_mf i x s, finishCommand_failed hr,
    rfl, rfl⟩

/-- R171, R172, R176, R177 under either layering: ENCODE of an input that fits. -/
theorem exec_encode_completes (d : Bool) {s : State} {x : Buf} (hx : HasInput s x)
    (hfits : 20 + (s.hw.codec.compress x).length ≤ s.hw.maxLen.toNat) :
    ∃ (t : State) (y1 y2 y3 y4 : Buf), exec (.encode d) s = .next t ∧ InputSideKept s t ∧ t.mf = s.mf ∧
      y1 = be32 x.length ++ s.hw.codec.compress x ∧ y2 = encodeStage2 s.hw.layering y1 ∧
      y3 = s.hw.cipher.sealBytes s.hw.key s.hw.iv [] y2 ∧ y4 = encodeStage4 s.hw.layering y3 ∧
      Succeeded s t y4 ∧ t.work = y4 ∧
      t.obs = s.obs ++ taps .encode d [(1, y1), (2, y2), (3, y3), (4, y4)] ∧
      y1.length = 4 + (s.hw.codec.compress x).length ∧ y2.length = y1.length ∧
      y3.length = 20 + (s.hw.codec.compress x).length ∧ y4.length = y3.length := by
  have hframe : frame s.hw x = .ok (be32 x.length ++ s.hw.codec.compress x) :=
    frame_eq_ok_iff.mpr ⟨by omega, rfl⟩
  have hlen2 := encodeStage2_frame_length s.hw x
  have hlen3 : (sealedFrame s.hw x).length = 20 + (s.hw.codec.compress x).length := by
    rw [sealedFrame_length, Nat.add_comm]
  have hseal : aeadEnc s.hw (encodeStage2 s.hw.layering (be32 x.length ++ s.hw.codec.compress x)) =
      .ok (sealedFrame s.hw x) :=
    aeadEnc_eq_ok_iff.mpr ⟨by omega, rfl⟩
  have hstages := encode_passes hframe hseal
  obtain ⟨t, ht, hkept, hmf, hdone, hwork, hobs⟩ :=
    exec_succeeds (i := .encode d) rfl hx hstages.stageOutputs_eq hstages.pipeline_eq
  exact ⟨t, _, _, _, _, ht, hkept, hmf, rfl, rfl, rfl, rfl, hdone, hwork, hobs,
    (encodeStage2_length ..).symm.trans hlen2, encodeStage2_length .., hlen3, encodeStage4_length ..⟩

/-- R173, R174, R176: DECODE when one of its stages fails. -/
theorem exec_decode_fails {d : Bool} {s : State} {x : Buf} {outs : List (StageNo × Buf)} {k : ErrKind} {n : StageNo}
    (hx : HasInput s x) (hstages : StagesTo s.hw (decodeStages s.hw.layering) x outs (.err k n)) :
    ∃ t, exec (.decode d) s = .next t ∧ InputSideKept s t ∧ t.mf = s.mf ∧ Failed s t k.code n ∧
      t.obs = s.obs ++ taps .decode d outs := by
  obtain ⟨t, ht, hkept, hmf, hfailed, -, hobs⟩ :=
    exec_fails (i := .decode d) rfl hx hstages.stageOutputs_eq hstages.pipeline_eq
  exact ⟨t, ht, hkept, hmf, hfailed, hobs⟩

/-! ### The table of R181 -/

/-- R181: the rows for the recovered frame are the answer of UNFRAME to it. -/
theorem frameOutcome_cases (p : Params) (f : Buf) :
    (unframe p f = .err .format 0 ∧ frameOutcome p f = (.format, 4)) ∨
    (∃ y, unframe p f = .ok y ∧ frameOutcome p f = (.none, 0)) := by
  simp only [frameOutcome, unframe, unframeStream, prefixLen, List.length_drop]
  split
  · exact .inl ⟨rfl, rfl⟩
  · split
    · exact .inl ⟨rfl, rfl⟩
    · cases p.codec.inflate (f.drop 4) with
      | malformed => exact .inl ⟨rfl, rfl⟩
      | truncated => exact .inl ⟨rfl, rfl⟩
      | ok y k =>
        dsimp only
        split
        · exact .inl ⟨rfl, rfl⟩
        · split
          · exact .inl ⟨rfl, rfl⟩
          · exact .inr ⟨_, rfl, rfl⟩

/-- R181: an input too short to hold a tag. -/
theorem decodeOutcome_short {p : Params} {x : Buf} (h : x.length < 16) : decodeOutcome p x = (.format, 2) := if_pos h

/-- R181: an input whose tag does not hold. -/
theorem decodeOutcome_rejected {p : Params} {x : Buf} (hlen : 16 ≤ x.length)
    (hopen : p.cipher.openBytes p.key p.iv [] (decodeStage1 p.layering x) = none) :
    decodeOutcome p x = (.auth, 2) := by
  rw [decodeOutcome, if_neg (not_lt.mpr hlen), hopen]

/-- R181: an input whose ciphertext opens. -/
theorem decodeOutcome_opened {p : Params} {x y : Buf} (hlen : 16 ≤ x.length)
    (hopen : p.cipher.openBytes p.key p.iv [] (decodeStage1 p.layering x) = some y) :
    decodeOutcome p x = frameOutcome p (decodeStage3 p.layering y) := by
  rw [decodeOutcome, if_neg (not_lt.mpr hlen), hopen]

/-- `ERR` and `FAIL_STAGE` after a completion with this result, R163. -/
def resultStatus : Result → ErrCode × StageNo
  | .ok _ => (.none, 0)
  | .err k n => (k.code, n)

/-- R181: the table is the status of what decode answers, by the stage that fails. -/
theorem resultStatus_decodeBytes (p : Params) (x : Buf) : resultStatus (decodeBytes p x) = decodeOutcome p x := by
  have hlen1 := decodeStage1_length p.layering x
  rcases aeadDec_cases p (decodeStage1 p.layering x) with ⟨hshort, hr⟩ | ⟨hlen, hopen, hr⟩ | ⟨hlen, z, hopen, hr⟩
  · rw [decodeBytes, (decode_fails_at_open hr).pipeline_eq, decodeOutcome_short (by omega)]
    rfl
  · rw [decodeBytes, (decode_fails_at_open hr).pipeline_eq, decodeOutcome_rejected (by omega) hopen]
    rfl
  · rw [decodeOutcome_opened (by omega) hopen]
    rcases frameOutcome_cases p (decodeStage3 p.layering z) with ⟨hu, hrow⟩ | ⟨y, hu, hrow⟩
    · rw [decodeBytes, (decode_fails_at_unframe hr hu).pipeline_eq, hrow]
      rfl
    · rw [decodeBytes, (decode_passes hr hu).pipeline_eq, hrow]
      rfl

/-- R163: how every command with an input ends. -/
theorem finishCommand_status (i : Instr) (x : Buf) (s : State) :
    (finishCommand i x s).status.busy = false ∧ (finishCommand i x s).status.done = true ∧
      ((finishCommand i x s).status.err, (finishCommand i x s).status.failStage) =
        resultStatus (commandResult s.hw x i) := by
  rw [finishCommand]
  cases commandResult s.hw x i <;> exact ⟨rfl, rfl, rfl⟩

end Sys2Proof.Machine

namespace Sys2Proof.Safety

open Sys2Proof.Machine

/-- Settles O26: `exec_encode_completes` at `A_OUTER`. -/
theorem encodeWithFormulaAOutsideCompletes : Obligations.EncodeWithFormulaAOutsideCompletes := by
  intro d s x hx hlay hfits
  have hdone := exec_encode_completes d hx hfits
  rw [hlay] at hdone
  exact hdone

/-- Settles O27: `exec_encode_completes` at `A_INNER`. -/
theorem encodeWithFormulaAInsideCompletes : Obligations.EncodeWithFormulaAInsideCompletes := by
  intro d s x hx hlay hfits
  have hdone := exec_encode_completes d hx hfits
  rw [hlay] at hdone
  exact hdone

/-- Settles O28: either FRAME does not fit, or the frame does and its ciphertext, 16 bytes longer, does not. -/
theorem encodeThatDoesNotFitFailsWithCapacity : Obligations.EncodeThatDoesNotFitFailsWithCapacity := by
  intro d s x hx
  rcases frame_cases s.hw x with ⟨hlong, hframe⟩ | ⟨hfits, hframe⟩
  · have hstages := encode_fails_at_frame hframe
    exact ⟨fun _ => exec_stage_fails (i := .encode d) rfl hx hstages.stageOutputs_eq hstages.pipeline_eq,
      fun hfits => absurd hlong (by omega)⟩
  · refine ⟨fun hlong => absurd hlong (by omega), fun _ hlong => ?_⟩
    have hlen2 := encodeStage2_frame_length s.hw x
    rcases aeadEnc_cases s.hw (encodeStage2 s.hw.layering (be32 x.length ++ s.hw.codec.compress x)) with
      ⟨-, hseal⟩ | ⟨hsealed, -⟩
    · have hstages := encode_fails_at_seal hframe hseal
      obtain ⟨t, ht, hkept, hmf, hfailed, hwork, hobs⟩ :=
        exec_fails (i := .encode d) rfl hx hstages.stageOutputs_eq hstages.pipeline_eq
      exact ⟨t, _, _, ht, hkept, hmf, hfailed, rfl, rfl, hwork, hobs⟩
    · omega

/-- Settles O29: the hypotheses are the conditions of `aeadDec_eq_ok_iff` and `unframe_append_eq_ok_iff`. -/
theorem decodeOfAValidArtifactCompletes : Obligations.DecodeOfAValidArtifactCompletes := by
  rintro d s x y1 y2 y3 y4 k hx hlen rfl hopen rfl hlen3 hinflate hprefix hle hk
  have hlen1 := decodeStage1_length s.hw.layering x
  have hr : aeadDec s.hw (decodeStage1 s.hw.layering x) = .ok y2 := aeadDec_eq_ok_iff.mpr ⟨by omega, hopen⟩
  have hlen2 : y2.length = x.length - 16 := by
    rw [s.hw.cipher.open_length _ _ _ _ _ (hlen1 ▸ hlen) hopen, hlen1]
  have hu : unframe s.hw (decodeStage3 s.hw.layering y2) = .ok y4 := by
    rw [← List.take_append_drop 4 (decodeStage3 s.hw.layering y2)]
    refine (unframe_append_eq_ok_iff (List.length_take_of_le hlen3)).mpr ⟨k, hinflate, hprefix, hle, ?_⟩
    rwa [List.length_drop]
  have hstages := decode_passes hr hu
  obtain ⟨t, ht, hkept, hmf, hdone, hwork, hobs⟩ :=
    exec_succeeds (i := .decode d) rfl hx hstages.stageOutputs_eq hstages.pipeline_eq
  exact ⟨t, ht, hkept, hmf, hdone, hwork, hobs, hlen1, hlen2, (decodeStage3_length ..).trans hlen2⟩

/-- Settles O30: the table is the status of what decode answers, `resultStatus_decodeBytes`. -/
theorem decodeOutcomesAreTheTableOfTheRule : Obligations.DecodeOutcomesAreTheTableOfTheRule := by
  intro d s
  refine ⟨fun x hx => ?_, exec_oversized rfl⟩
  obtain ⟨hbusy, hdone, hstatus⟩ := finishCommand_status (.decode d) x s
  exact ⟨_, exec_input rfl hx, hbusy, hdone, hstatus.trans (resultStatus_decodeBytes s.hw x)⟩

/-- Settles O60: the stage that fails is AEAD_DEC in the first two clauses, and UNFRAME in the third. -/
theorem decodeThatFailsKeepsTheTapsOfTheStagesBefore :
    Obligations.DecodeThatFailsKeepsTheTapsOfTheStagesBefore := by
  rintro d s x y1 hx rfl
  have hlen1 := decodeStage1_length s.hw.layering x
  refine ⟨fun hshort => ?short, fun hlen hopen => ?rejected, fun y2 y3 hlen hopen hy3 hrow => ?badFrame⟩
  case short => exact exec_decode_fails hx (decode_fails_at_open (aeadDec_of_short (by omega)))
  case rejected => exact exec_decode_fails hx (decode_fails_at_open (aeadDec_of_open_none (by omega) hopen))
  case badFrame =>
    subst hy3
    have hr : aeadDec s.hw (decodeStage1 s.hw.layering x) = .ok y2 := aeadDec_eq_ok_iff.mpr ⟨by omega, hopen⟩
    rcases frameOutcome_cases s.hw (decodeStage3 s.hw.layering y2) with ⟨hu, -⟩ | ⟨y, -, hnone⟩
    · exact exec_decode_fails hx (decode_fails_at_unframe hr hu)
    · cases hrow.symm.trans hnone

end Sys2Proof.Safety
end

section
/-! DECODE after ENCODE (spec/43_sequencer.md R178, R180): each stage of the one undoes a stage of the other, on the
core functions and at the register level. -/

namespace Sys2Proof.Machine

open Sys2Proof.Safety

/-- R105, R106, R171: stage 1 of DECODE undoes stage 4 of ENCODE. -/
theorem decodeStage1_encodeStage4 (lay : Layering) (z : Buf) : decodeStage1 lay (encodeStage4 lay z) = z := by
  cases lay with
  | aOuter => exact obfaFwd_obfaInv z
  | aInner => exact obfb_obfb z

/-- R105, R106, R171: stage 3 of DECODE undoes stage 2 of ENCODE. -/
theorem decodeStage3_encodeStage2 (lay : Layering) (f : Buf) : decodeStage3 lay (encodeStage2 lay f) = f := by
  cases lay with
  | aOuter => exact obfb_obfb f
  | aInner => exact obfaFwd_obfaInv f

/-- R178: decode undoes encode, stage by stage from the last one back. -/
theorem decodeBytes_of_encodeBytes {p : Params} {x y : Buf} (hx : x.length ≤ p.maxLen.toNat)
    (hy : encodeBytes p x = .ok y) : decodeBytes p y = .ok x := by
  obtain ⟨f, z, hframe, hseal, rfl⟩ := encodeBytes_eq_ok_iff_stages.mp hy
  obtain ⟨f', hframe', -, -, hunframe⟩ := unframeUndoesFrame p x hx (frame_eq_ok_iff.mp hframe).1
  obtain ⟨z', hseal', -, hopen⟩ := aeadDecUndoesAeadEnc p _ (aeadEnc_eq_ok_iff.mp hseal).1
  cases hframe.symm.trans hframe'
  cases hseal.symm.trans hseal'
  rw [← decodeStage1_encodeStage4 p.layering z] at hopen
  rw [← decodeStage3_encodeStage2 p.layering f] at hunframe
  exact (decode_passes hopen hunframe).pipeline_eq

/-- A block with the test doubles of 95_test_vectors.md, just large enough for the artifact of the empty input. -/
def smallestBlock : Params where
  maxLen := 22
  keyByte := 0x89
  ivByte := 0x10
  deflateFmt := .testDouble
  aeadAlg := .testDouble
  regBase := 0

/-- 95_test_vectors.md §4.4: the artifact of the empty input under `A_OUTER`. -/
def emptyArtifact : Buf :=
  [0x6D, 0x7A, 0x57, 0xA8, 0x81, 0x96, 0xD3, 0xFC, 0xE5, 0x12, 0x3F, 0x20, 0x49, 0x7E, 0x6B, 0x84, 0x0C, 0xE6,
    0x72, 0x4B, 0xA0, 0xB5]

theorem encodeBytes_smallestBlock : encodeBytes smallestBlock [] = .ok emptyArtifact := by decide

/-- Under the other layering the tag of the artifact does not hold. -/
theorem decodeBytes_other_layering :
    decodeBytes { smallestBlock with layering := .aInner } emptyArtifact = .err .auth 2 := by decide

/-- R163: a result is the readable output, so a command has at most one. -/
theorem succeeded_unique {s t : State} {x y : Buf} (hx : Succeeded s t x) (hy : Succeeded s t y) : x = y := by
  have hlen : x.length = y.length := hx.outLen.symm.trans hy.outLen
  refine List.ext_getElem? fun i => ?_
  by_cases hi : i < x.length
  · rw [← hx.written i hi, hy.written i (hlen ▸ hi)]
  · rw [List.getElem?_eq_none (not_lt.mp hi), List.getElem?_eq_none (hlen ▸ not_lt.mp hi)]

/-- R163: the result that a successful command leaves is the one its core function answers. -/
theorem commandResult_of_succeeded {i : Instr} {s t : State} {x y : Buf} (hi : executes i = true)
    (hx : HasInput s x) (ht : exec i s = .next t) (hy : Succeeded s t y) : commandResult s.hw x i = .ok y := by
  cases (exec_input hi hx).symm.trans ht
  cases hr : commandResult s.hw x i with
  | ok z => rw [succeeded_unique hy (finishCommand_succeeded hx hr)]
  | err k n => exact absurd ((finishCommand_failed hr).err.symm.trans hy.err) (errKind_code_ne k).1

end Sys2Proof.Machine

namespace Sys2Proof.Safety

open Sys2Proof.Machine

/-- Settles O43: an input that fits has an artifact, which `decodeBytes_of_encodeBytes` decodes; across layerings the
empty input of a block with the test doubles is a counterexample. -/
theorem decodeUndoesEncode : Obligations.DecodeUndoesEncode := by
  refine ⟨fun p x hx hfits => ?_, smallestBlock, [], emptyArtifact, by decide, rfl, encodeBytes_smallestBlock, ?_⟩
  · have hy := encodeBytes_eq_ok_iff.mpr ⟨Nat.add_comm 20 _ ▸ hfits, rfl⟩
    exact ⟨_, hy, decodeBytes_of_encodeBytes hx hy⟩
  · rw [decodeBytes_other_layering]
    exact nofun

/-- Settles O44: the artifact has the length of `sealedFrame`, and a stream has at least one byte. -/
theorem emptyInputEncodesToANonEmptyArtifact : Obligations.EmptyInputEncodesToANonEmptyArtifact := by
  intro p hfits
  have hy := encodeBytes_eq_ok_iff.mpr ⟨Nat.add_comm 20 _ ▸ hfits, rfl⟩
  have hpos := p.codec.compress_pos []
  have hlen : (encodeStage4 p.layering (sealedFrame p [])).length = 20 + (p.codec.compress []).length := by
    rw [encodeStage4_length, sealedFrame_length, Nat.add_comm]
  exact ⟨_, hy, hlen, by omega, decodeBytes_of_encodeBytes (Nat.zero_le _) hy⟩

/-- Settles O46: the moved output is the artifact of `x`, so the core function of DECODE answers `x` on it. -/
theorem encodeMoveDecodeReturnsTheInput : Obligations.EncodeMoveDecodeReturnsTheInput := by
  intro d d' s t u x y hx ht hy hhw hu
  have hencode : encodeBytes s.hw x = .ok y := commandResult_of_succeeded (i := .encode d) rfl hx ht hy
  obtain ⟨hlen, hle, -⟩ := hx
  have hdecode : decodeBytes u.hw y = .ok x := by
    rw [hhw]
    exact decodeBytes_of_encodeBytes (hlen.trans_le hle) hencode
  exact ⟨_, exec_input (i := .decode d') rfl hu, finishCommand_succeeded hu hdecode⟩

end Sys2Proof.Safety
end

section
/-! Every command that executes (spec/43_sequencer.md R162, R179; spec/60_exceptions.md R200): how it ends with an
error, and what its result depends on. -/

namespace Sys2Proof.Machine

open Sys2Proof.Safety

/-- R200: a command that ends with an error ends as `Failed` says, and records no model fault. -/
theorem ExecTo.failed {i : Instr} {s t : State} (h : ExecTo i s t) (hi : executes i = true)
    (hs : s.status.err = .none) (ht : t.status.err ≠ .none) :
    Failed s t t.status.err t.status.failStage ∧ t.mf = s.mf := by
  cases h with
  | nop d hnop =>
    subst hnop
    cases hi
  | capacity => exact ⟨complete_failed .capacity 0 rfl, rfl⟩
  | unwritten => exact absurd hs ht
  | finished x _ hx =>
    cases hr : commandResult s.hw x i with
    | ok y => exact absurd (finishCommand_succeeded hx hr).err ht
    | err k n =>
      have hfailed := finishCommand_failed (s := s) hr
      rw [hfailed.err, hfailed.failStage]
      exact ⟨hfailed, finishCommand_mf i x s⟩

/-- R179: what a host can read of a completion is a function of the result. -/
theorem succeeded_same_output {s u s' u' : State} {y : Buf} (hs : Succeeded s s' y) (hu : Succeeded u u' y) :
    s'.outLen = u'.outLen ∧ ∀ a, a < s'.outLen.toNat → s'.outBuf.read? a = u'.outBuf.read? a := by
  refine ⟨BitVec.eq_of_toNat_eq (hs.outLen.trans hu.outLen.symm), fun a ha => ?_⟩
  rw [hs.outLen] at ha
  rw [hs.written a ha, hu.written a ha]

end Sys2Proof.Machine

namespace Sys2Proof.Safety

open Sys2Proof.Machine

/-- Settles O31: such a command ends before it looks at `IN`, `exec_oversized`. -/
theorem oversizedInputLengthIsCapacity : Obligations.OversizedInputLengthIsCapacity := by
  intro i s hi hlong
  obtain ⟨t, ht, hkept, htrace, hfailed⟩ := exec_oversized hi hlong
  exact ⟨t, ht, hfailed, hkept, htrace⟩

/-- Settles O33: of the ways a command ends, only a completion with an error leaves `ERR` other than `NONE`. -/
theorem errorCompletionExposesNothing : Obligations.ErrorCompletionExposesNothing := by
  intro i s t hi hs hexec ht
  have hto := execTo_of_exec hexec
  obtain ⟨hfailed, hmf⟩ := hto.failed hi hs ht
  exact ⟨hfailed, hto.inputSideKept, hmf, hto.obs_prefix⟩

/-- Settles O36: both commands end in `finishCommand`, whose result and taps see only the parameters and `x`. -/
theorem resultsAreAFunctionOfTheInput : Obligations.ResultsAreAFunctionOfTheInput := by
  intro i x s u hi hs hu hhw
  refine ⟨_, _, taps (pipeOpOf i) (diagOf i) (commandOutputs s.hw x i), exec_input hi hs, exec_input hi hu, ?_⟩
  have htaps : (finishCommand i x u).obs = u.obs ++ taps (pipeOpOf i) (diagOf i) (commandOutputs s.hw x i) := by
    rw [hhw]
    rfl
  cases hr : commandResult s.hw x i with
  | ok y =>
    have hsdone := finishCommand_succeeded hs hr
    have hudone := finishCommand_succeeded hu (hhw ▸ hr)
    obtain ⟨hlen, hbytes⟩ := succeeded_same_output hsdone hudone
    exact ⟨hsdone.err.trans hudone.err.symm, hsdone.failStage.trans hudone.failStage.symm, hlen, hbytes, rfl, htaps⟩
  | err k n =>
    have hsfail := finishCommand_failed (s := s) hr
    have hufail := finishCommand_failed (s := u) (hhw ▸ hr)
    refine ⟨hsfail.err.trans hufail.err.symm, hsfail.failStage.trans hufail.failStage.symm,
      hsfail.outLen.trans hufail.outLen.symm, fun a ha => ?_, rfl, htaps⟩
    rw [hsfail.outLen] at ha
    exact absurd ha (Nat.not_lt_zero a)

end Sys2Proof.Safety
end

section
/-! From the write of `CMD` to the end of the command (spec/43_sequencer.md R160, R162, R164, R165, R170): acceptance,
the block's turn, and the two steps of a command whose host is silent. -/

namespace Sys2Proof.Machine

open Sys2Proof.Safety

/-- R162: the block's turn runs the command in the latches. -/
theorem blockTurn_latched {s : State} {i : Instr} (busy : s.status.busy = true) (hop : s.latchOp = opcodeOf i)
    (hdiag : s.latchDiag = diagOf i) : blockTurn s = exec i s :=
  blockTurn_busy busy (by rw [latchedCommand, hop, hdiag, commandOf_opcodeOf])

/-- R160, R170: the write of a word of NOP completes it. -/
theorem acceptCommand_nop {v : Word} {d : Bool} (s : State) (hv : decode v = .ok (.nop d)) :
    acceptCommand v s = exec (.nop d) (acceptWord v s) := by
  rw [acceptCommand, hv]

/-- R160: the write of a word of any other command latches it. -/
theorem acceptCommand_latch {v : Word} {i : Instr} (s : State) (hv : decode v = .ok i) (hi : executes i = true) :
    acceptCommand v s = .next (latchCommand v (acceptWord v s)) := by
  rcases acceptCommand_cases v s with ⟨⟨e, he⟩, -⟩ | ⟨d, hd, -⟩ | ⟨-, -, -, ha⟩
  · cases he.symm.trans hv
  · cases hd.symm.trans hv
    cases hi
  · exact ha

/-- R160: acceptance latches the command itself. -/
theorem latchCommand_fields {v : Word} {i : Instr} (s : State) (hv : decode v = .ok i) :
    (latchCommand v s).status.busy = true ∧ (latchCommand v s).latchOp = opcodeOf i ∧
      (latchCommand v s).latchDiag = diagOf i := by
  obtain ⟨hop, hdiag⟩ := commandOf_eq_some (decode_eq_ok.mp hv).2
  exact ⟨rfl, hop.symm, hdiag.symm⟩

theorem wordOfBits_toNat (v : Word) : wordOfBits 32 v.toNat = v := by
  rw [wordOfBits, Nat.mod_eq_of_lt v.isLt, BitVec.ofNat_toNat, BitVec.setWidth_eq]

/-- A word of a command that executes is placed as accepted, with the block's turn next (log entry 7). -/
theorem placeCommand_latch {v : Word} {i : Instr} (s : State) (hv : decode v = .ok i) (hi : executes i = true) :
    placeCommand v s = { latchCommand v (acceptWord v s) with inbox := .blockTurn :: s.inbox } := by
  rw [placeCommand, hv]
  cases i with
  | nop d => cases hi
  | _ => rfl

theorem run_two {s t u : State} (hfirst : step s = .next t) (hsecond : step t = .next u) :
    Host.Core.run Sys2Proof.core 2 s = .next u :=
  (run_succ 1 hfirst).trans (run_succ 0 hsecond)

/-- R162, R163: a command that executes, and that need not read an unwritten cell, completes. -/
theorem exec_ends {i : Instr} {s : State} (hi : executes i = true)
    (hinput : s.hw.maxLen.toNat < s.inLen.toNat ∨ ∃ x, HasInput s x) :
    ∃ t, exec i s = .next t ∧ t.status.busy = false ∧ t.status.done = true := by
  rcases hinput with hlong | ⟨x, hx⟩
  · exact ⟨_, exec_capacity hi hlong, rfl, rfl⟩
  · obtain ⟨hbusy, hdone, -⟩ := finishCommand_status i x s
    exact ⟨_, exec_input hi hx, hbusy, hdone⟩

end Sys2Proof.Machine

namespace Sys2Proof.Safety

open Sys2Proof.Machine

/-- Settles O56: NOP ends in the first step and the second changes nothing; any other command is latched by the first
step and ends in the second. -/
theorem anAcceptedCommandEndsWhenTheHostIsSilent : Obligations.AnAcceptedCommandEndsWhenTheHostIsSilent := by
  intro s i idle hinbox hinput
  have hfirst := step_write_cmd hinbox idle
  cases hi : executes i with
  | false =>
    obtain ⟨d, rfl⟩ := executes_eq_false hi
    rw [acceptCommand_nop _ (decode_encode _), exec_nop] at hfirst
    exact ⟨_, run_two hfirst ((step_silent rfl).trans (blockTurn_idle idle)), idle, rfl, rfl⟩
  | true =>
    rw [acceptCommand_latch _ (decode_encode i) hi] at hfirst
    obtain ⟨busy, hop, hdiag⟩ := latchCommand_fields (acceptWord (encode i) { s with inbox := [] }) (decode_encode i)
    obtain ⟨t, ht, hbusy, hdone⟩ :=
      exec_ends (s := latchCommand (encode i) (acceptWord (encode i) { s with inbox := [] })) hi hinput
    have hsecond := (step_silent rfl).trans ((blockTurn_latched busy hop hdiag).trans ht)
    exact ⟨t, run_two hfirst hsecond, hbusy, hdone, (execTo_of_exec ht).inputSideKept.cmd⟩

/-- Settles O4: acceptance by the decoded word, and the block's turn by what the latches hold. -/
theorem aStepRunsTheDecodedCommand : Obligations.AStepRunsTheDecodedCommand := by
  refine ⟨fun s v d rest idle h hv => ?nop, fun s v i rest idle h hv hi => ?latch,
    fun s i busy hop hdiag => ⟨fun h => ?silent, fun rest h => ?turn⟩⟩
  case nop => rw [step_write_cmd h idle, acceptCommand_nop _ hv]
  case latch =>
    rw [step_write_cmd h idle, acceptCommand_latch _ hv hi]
    exact ⟨_, rfl, rfl, latchCommand_fields _ hv⟩
  case silent => rw [step_silent h, blockTurn_latched busy hop hdiag]
  case turn =>
    rw [step_event h]
    exact blockTurn_latched (s := { s with inbox := rest }) busy hop hdiag

/-- Settles O5: NOP is placed as the write of its word, any other command as latched with the block's turn next. -/
theorem aPlacedCommandRunsInTheNextStep : Obligations.APlacedCommandRunsInTheNextStep := by
  refine ⟨fun s d => ?nop, fun s i hi => ?executing⟩
  case nop =>
    rw [State.withFetchWord, wordOfBits_toNat, placeCommand, decode_encode, step_write_cmd rfl rfl,
      acceptCommand_nop _ (decode_encode _)]
  case executing =>
    obtain ⟨busy, hop, hdiag⟩ := latchCommand_fields (acceptWord (encode i) s) (decode_encode i)
    rw [State.withFetchWord, wordOfBits_toNat, placeCommand_latch s (decode_encode i) hi, step_event rfl]
    exact blockTurn_latched (s := latchCommand (encode i) (acceptWord (encode i) s)) busy hop hdiag

/-- Settles O16: `exec` of NOP is `completeNop`, which sets `DONE`. -/
theorem nopSetsDoneAndNothingElse : Obligations.NopSetsDoneAndNothingElse :=
  exec_nop

end Sys2Proof.Safety
end

section
/-! Every step answers (spec/60_exceptions.md R207, R209, R211): no access, command or reset traps, faults or halts the
block. -/

namespace Sys2Proof.Machine

/-- R162, R205: the block's turn is one command's meaning, which always answers, or it changes nothing. -/
theorem blockTurn_answers (s : State) : ∃ t, blockTurn s = .next t := by
  rcases blockTurn_cases s with ⟨i, -, -, hturn⟩ | hturn
  · obtain ⟨t, ht, -⟩ := exec_answers i s
    exact ⟨t, hturn.trans ht⟩
  · exact ⟨s, hturn⟩

/-- R160: a word written to `CMD` completes or is latched, also when it is illegal. -/
theorem acceptCommand_answers (v : Word) (s : State) : ∃ t, acceptCommand v s = .next t := by
  rcases acceptCommand_cases v s with ⟨-, ha⟩ | ⟨d, -, ha⟩ | ⟨i, -, -, ha⟩
  · exact ⟨_, ha⟩
  · exact ⟨_, ha⟩
  · exact ⟨_, ha⟩

/-- R207, R211: a host write of any width, at any offset and at any time, misuse included. -/
theorem hostWrite_answers (width : Nat) (offset : BitVec 8) (v : Word) (s : State) :
    ∃ t, hostWrite width offset v s = .next t := by
  rcases hostWrite_cases width offset v s with hignored | ⟨-, haccepted⟩ | ⟨-, -, hregister⟩
  · exact ⟨s, hignored⟩
  · rw [haccepted]
    exact acceptCommand_answers v s
  · exact ⟨_, hregister⟩

theorem handleEvent_answers (e : Event) (s : State) : ∃ t, handleEvent e s = .next t := by
  cases e with
  | write width offset v => exact hostWrite_answers width offset v s
  | read width offset => exact ⟨_, rfl⟩
  | blockTurn => exact blockTurn_answers s
  | reset => exact ⟨_, rfl⟩

end Sys2Proof.Machine

namespace Sys2Proof.Safety

open Sys2Proof.Machine

/-- Settles O47: a step is one event, or the block's turn when the host is silent, and each of them answers. -/
theorem everyStepAnswersANextState : Obligations.EveryStepAnswersANextState := by
  intro s
  cases hinbox : s.inbox with
  | nil =>
    rw [step_silent hinbox]
    exact blockTurn_answers s
  | cons e rest =>
    rw [step_event hinbox]
    exact handleEvent_answers e { s with inbox := rest }

end Sys2Proof.Safety
end

section
/-! The reset step (spec/70_reset_and_hazards.md R230, R231): it forgets the command in flight and what it worked on. -/

namespace Sys2Proof.Safety

open Sys2Proof.Machine

/-- R230, R231: a reset is taken whatever the block is doing, and consumes its own event only. -/
theorem step_reset {s : State} {rest : List Event} (h : s.inbox = .reset :: rest) :
    step s = .next (platformReset { s with inbox := rest }) := by
  rw [step_event h, handleEvent]

/-- Settles O14: the fields of `platformReset`, of which only the parameters, `MF` and the host's lists are those of the
state before. -/
theorem resetStepGivesTheResetValues : Obligations.ResetStepGivesTheResetValues := by
  intro s rest h
  refine ⟨_, step_reset h, platformReset_cmd _, platformReset_status _, platformReset_inLen _, platformReset_outLen _,
    platformReset_inPtr _, platformReset_outPtr _, fun a => ?unwritten, platformReset_stage _, platformReset_obs _,
    platformReset_hw _, platformReset_mf _, platformReset_inbox _, platformReset_replies _⟩
  case unwritten => rw [platformReset_inBuf, Memory.read?_nil]

end Sys2Proof.Safety
end
